-- ==== Sys2Proof/Word.lean ====
section
/-! DEFINITION. The widths every file shares: a 64-bit block register, a byte, a 32-bit command word (R13, R20, R90). -/

namespace Sys2Proof

/-- The value of a 64-bit block register (R20). -/
abbrev Word := BitVec 64

/-- A byte of the buffer space or of a command's immediate (R15, R92). -/
abbrev Byte := BitVec 8

/-- A command word (R90). -/
abbrev CmdWord := BitVec 32

end Sys2Proof
end

