-- ==== Sys2Proof/Syntax.lean ====
section
/-! DEFINITION. The eight commands of R93, one constructor per row of spec/opcode_table.json, with the fields each one uses. -/

namespace Sys2Proof

/-- A command. `vid` is the unsigned 4-bit variant number and the `Byte` is `imm8` (R92). -/
inductive Instr where
  /-- `NOP` (R170). -/
  | nop
  /-- `TBUILD variant` (R115). -/
  | tbuild (vid : BitVec 4)
  /-- `TREAD variant, #index` (R116). -/
  | tread (vid : BitVec 4) (index : Byte)
  /-- `CINIT variant` (R151). -/
  | cinit (vid : BitVec 4)
  /-- `STEP variant, #byte` (R152). -/
  | step (vid : BitVec 4) (c : Byte)
  /-- `CFINAL variant` (R153). -/
  | cfinal (vid : BitVec 4)
  /-- `COMPUTE variant` (R134). -/
  | compute (vid : BitVec 4)
  /-- `SRESET` (R171). -/
  | sreset
  deriving DecidableEq, Repr

/-- The mnemonic of the command's row of the opcode map (R93). -/
def Instr.mnemonic : Instr → String
  | .nop => "NOP"
  | .tbuild _ => "TBUILD"
  | .tread _ _ => "TREAD"
  | .cinit _ => "CINIT"
  | .step _ _ => "STEP"
  | .cfinal _ => "CFINAL"
  | .compute _ => "COMPUTE"
  | .sreset => "SRESET"

/-- The variant the command names, where it uses its `vid` field (R93). -/
def Instr.vid? : Instr → Option (BitVec 4)
  | .nop => none
  | .tbuild v => some v
  | .tread v _ => some v
  | .cinit v => some v
  | .step v _ => some v
  | .cfinal v => some v
  | .compute v => some v
  | .sreset => none

/-- The immediate, where the command uses its `imm8` field (R93). -/
def Instr.imm? : Instr → Option Byte
  | .nop => none
  | .tbuild _ => none
  | .tread _ i => some i
  | .cinit _ => none
  | .step _ c => some c
  | .cfinal _ => none
  | .compute _ => none
  | .sreset => none

end Sys2Proof
end

