-- ==== Sys2Proof/Decode.lean ====
section
/-! DEFINITION. Format C (R90 to R95): field extraction, decoding of every 32-bit word, the opcode map, and the encoder of R91. -/

namespace Sys2Proof

/-- Why a word is no legal command (R94, R95). Which of several reasons is named is the model's own,
DESIGN CHOICE (log entry 17); the block reports
`IllegalCommand` for all of them. -/
inductive Illegal where
  /-- The `zero` field is not 0 (R95 b). -/
  | zeroField
  /-- `op` is 8 to 15 (R95 a). -/
  | reservedOp
  /-- The command does not use `vid` and the field is not 0 (R95 c). -/
  | unusedVid
  /-- The command does not use `imm8` and the field is not 0 (R95 c). -/
  | unusedImm8
  deriving DecidableEq, Repr

/-- `op = w[3:0]` (R91). -/
def opField (w : CmdWord) : BitVec 4 := w.extractLsb' 0 4

/-- `vid = w[7:4]` (R91). -/
def vidField (w : CmdWord) : BitVec 4 := w.extractLsb' 4 4

/-- `imm8 = w[15:8]` (R91). -/
def immField (w : CmdWord) : Byte := w.extractLsb' 8 8

/-- `zero = w[31:16]` (R91). -/
def zeroField (w : CmdWord) : BitVec 16 := w.extractLsb' 16 16

/-- A command that uses neither `vid` nor `imm8`. -/
def decodePlain (w : CmdWord) (i : Instr) : Except Illegal Instr :=
  if vidField w ≠ 0 then .error .unusedVid
  else if immField w ≠ 0 then .error .unusedImm8
  else .ok i

/-- A command that uses `vid` alone. -/
def decodeVariant (w : CmdWord) (mk : BitVec 4 → Instr) : Except Illegal Instr :=
  if immField w ≠ 0 then .error .unusedImm8 else .ok (mk (vidField w))

/-- Decoding, total on all words (R94). -/
def decode (w : CmdWord) : Except Illegal Instr :=
  if zeroField w ≠ 0 then .error .zeroField
  else match (opField w).toNat with
    | 0 => decodePlain w .nop
    | 1 => decodeVariant w .tbuild
    | 2 => .ok (.tread (vidField w) (immField w))
    | 3 => decodeVariant w .cinit
    | 4 => .ok (.step (vidField w) (immField w))
    | 5 => decodeVariant w .cfinal
    | 6 => decodeVariant w .compute
    | 7 => decodePlain w .sreset
    | _ => .error .reservedOp

/-- One row of the opcode map (R93): the row's command is a word `w` exactly when `w AND mask = pattern`. -/
structure OpRow where
  mnemonic : String
  pattern : CmdWord
  mask : CmdWord
  deriving DecidableEq, Repr

/-- The opcode map (R93). -/
def opcodeMap : List OpRow :=
  [ ⟨"NOP", 0x00000000, 0xFFFFFFFF⟩,
    ⟨"TBUILD", 0x00000001, 0xFFFFFF0F⟩,
    ⟨"TREAD", 0x00000002, 0xFFFF000F⟩,
    ⟨"CINIT", 0x00000003, 0xFFFFFF0F⟩,
    ⟨"STEP", 0x00000004, 0xFFFF000F⟩,
    ⟨"CFINAL", 0x00000005, 0xFFFFFF0F⟩,
    ⟨"COMPUTE", 0x00000006, 0xFFFFFF0F⟩,
    ⟨"SRESET", 0x00000007, 0xFFFFFFFF⟩ ]

/-- The word of R91, with `zero = 0`: `op + 16 * vid + 256 * imm8`. -/
def encodeFields (op vid : BitVec 4) (imm8 : Byte) : CmdWord :=
  BitVec.ofNat 32 (op.toNat + 16 * vid.toNat + 256 * imm8.toNat)

/-- The encoder (R91, R93). -/
def encode : Instr → CmdWord
  | .nop => encodeFields 0 0 0
  | .tbuild vid => encodeFields 1 vid 0
  | .tread vid index => encodeFields 2 vid index
  | .cinit vid => encodeFields 3 vid 0
  | .step vid c => encodeFields 4 vid c
  | .cfinal vid => encodeFields 5 vid 0
  | .compute vid => encodeFields 6 vid 0
  | .sreset => encodeFields 7 0 0

/-- The command word whose bits are the low `nbits` bits of `w`. Every command is 32 bits long (R90). -/
def tableWord (nbits w : Nat) : CmdWord := BitVec.ofNat 32 (w % 2 ^ nbits)

/-- What the decoder reads from an instruction whose bits are `w`, numbered as the opcode table numbers them. -/
def decodeTableWord (nbits w : Nat) : Option Instr :=
  match decode (tableWord nbits w) with
  | .ok i => some i
  | .error _ => none

end Sys2Proof
end

