-- ==== Sys2Proof/Machine/Bits.lean ====
section
/-! DEFINITION. The operators of R13 and R14 on `W`-bit values that have no name of their own in Lean's library. -/

namespace Sys2Proof.Machine

/-- `zext_N` and `trunc_N` (R14): `a` at width `n`, zeros above or high bits dropped. -/
def toWidth (n : Nat) {w : Nat} (a : BitVec w) : BitVec n := a.setWidth n

/-- `shl_W(a, k)` (R14). -/
def shl {w : Nat} (a : BitVec w) (k : Nat) : BitVec w := a <<< k

/-- `shr(a, k)` (R14). -/
def shr {w : Nat} (a : BitVec w) (k : Nat) : BitVec w := a >>> k

/-- `bitrev_W(a)` (R14): bit `i` of the result is `a[W-1-i]`. -/
def bitrev {w : Nat} (a : BitVec w) : BitVec w := a.reverse

/-- The top byte `r[W-1:W-8]` (R13). -/
def topByte {w : Nat} (r : BitVec w) : Byte := r.extractLsb' (w - 8) 8

/-- The low byte `r[7:0]` (R13). -/
def lowByte {w : Nat} (r : BitVec w) : Byte := r.setWidth 8

end Sys2Proof.Machine
end

