-- ==== Sys2Proof/Config.lean ====
section
/-! DEFINITION. What an implementation fixes (R6 to R12): Parameter Sets, the configuration record, and the open function `sick_step`. -/

namespace Sys2Proof

/-- `WIDTHS` (R6): the register widths, and no other. -/
inductive Width where
  | w8 | w16 | w32 | w64
  deriving DecidableEq, Repr

/-- The width in bits (R6). -/
def Width.bits : Width → Nat
  | .w8 => 8
  | .w16 => 16
  | .w32 => 32
  | .w64 => 64

/-- Whether a variant is computed by the table fold or by `sick_step` (R50, field `kind`). -/
inductive Kind where
  | table | sick
  deriving DecidableEq, Repr

/-- A key (R52): all that a lookup table is derived from. The polynomial is `width` bits wide (R51). -/
structure Key where
  width : Width
  polynomial : BitVec width.bits
  reflectIn : Bool
  deriving DecidableEq, Repr

/-- `W` of a key: the width of its registers and table entries. -/
abbrev Key.W (k : Key) : Nat := k.width.bits

/-- A Parameter Set (R50): a key and the four fields a table does not depend on. `init` and `xorout` are `width`
bits wide (R51). -/
structure ParamSet extends Key where
  kind : Kind
  init : BitVec width.bits
  reflectOut : Bool
  xorout : BitVec width.bits
  deriving DecidableEq, Repr

/-- `W` of a Parameter Set. -/
abbrev ParamSet.W (P : ParamSet) : Nat := P.width.bits

/-- The parameters of R7, R8, R10 and R12, as plain data fixed for a machine. `NVAR` is `presets.length`. -/
structure Config where
  /-- `AW` (R10): the width in bits of a buffer address. -/
  aw : Nat
  /-- `PRESETS` (R7): the preset ROM, indexed by variant number. -/
  presets : List ParamSet
  /-- `ENABLED` (R8): the variant numbers this build includes. -/
  enabled : List Nat
  /-- `MemErr` (R12): the addresses whose read answers `error`. -/
  memErr : List Nat
  deriving DecidableEq, Repr

/-- `sick_step` (R11, R156): OPEN. A function of the register, the byte and the previous byte, of which nothing else is
known; it has no body, so no proof can rest on one (log entry 5). -/
opaque Config.sickStep : BitVec 16 → Byte → Byte → BitVec 16

/-- The body R156 suggests for `sick_step`. PRESUMED: the spec marks it general knowledge, not source. No meaning calls
it; it serves to check the spec's own vectors for the Sick variant (log entry 6). -/
def Config.sickStepSuggested (reg : BitVec 16) (c prev : Byte) : BitVec 16 :=
  (if reg.msb then (reg <<< 1) ^^^ 0x8005#16 else reg <<< 1) ^^^ ((prev.setWidth 16 <<< 8) ^^^ c.setWidth 16)

end Sys2Proof
end

