-- ==== Sys2Proof/Machine/Presets.lean ====
section
/-! DEFINITION. The default preset ROM (R53), the default configuration, valid variants (R57), keys and table slots (R52). -/

namespace Sys2Proof

/-- `crc_8`, vid 0 (R53). -/
def presetCrc8 : ParamSet :=
  { width := .w8, polynomial := 0x07, init := 0x00, reflectIn := false, reflectOut := false, xorout := 0x00, kind := .table }

/-- `crc_16`, vid 1 (R53). -/
def presetCrc16 : ParamSet :=
  { width := .w16, polynomial := 0xA001, init := 0x0000, reflectIn := true, reflectOut := true, xorout := 0x0000, kind := .table }

/-- `crc_modbus`, vid 2 (R53). -/
def presetModbus : ParamSet :=
  { width := .w16, polynomial := 0xA001, init := 0xFFFF, reflectIn := true, reflectOut := true, xorout := 0x0000, kind := .table }

/-- `crc_ccitt_1d0f`, vid 3 (R53). -/
def presetCcitt1d0f : ParamSet :=
  { width := .w16, polynomial := 0x1021, init := 0x1D0F, reflectIn := false, reflectOut := false, xorout := 0x0000, kind := .table }

/-- `crc_ccitt_ffff`, vid 4 (R53). -/
def presetCcittFfff : ParamSet :=
  { width := .w16, polynomial := 0x1021, init := 0xFFFF, reflectIn := false, reflectOut := false, xorout := 0x0000, kind := .table }

/-- `crc_xmodem`, vid 5 (R53). -/
def presetXmodem : ParamSet :=
  { width := .w16, polynomial := 0x1021, init := 0x0000, reflectIn := false, reflectOut := false, xorout := 0x0000, kind := .table }

/-- `crc_dnp`, vid 6 (R53). -/
def presetDnp : ParamSet :=
  { width := .w16, polynomial := 0xA6BC, init := 0x0000, reflectIn := true, reflectOut := true, xorout := 0xFFFF, kind := .table }

/-- `crc_kermit`, vid 7 (R53). -/
def presetKermit : ParamSet :=
  { width := .w16, polynomial := 0x8408, init := 0x0000, reflectIn := true, reflectOut := true, xorout := 0x0000, kind := .table }

/-- `crc_sick`, vid 8 (R53, R58). -/
def presetSick : ParamSet :=
  { width := .w16, polynomial := 0x8005, init := 0x0000, reflectIn := false, reflectOut := false, xorout := 0x0000, kind := .sick }

/-- `crc_32`, vid 9 (R53). -/
def presetCrc32 : ParamSet :=
  { width := .w32, polynomial := 0xEDB88320, init := 0xFFFFFFFF, reflectIn := true, reflectOut := true, xorout := 0xFFFFFFFF,
    kind := .table }

/-- `crc_64_ecma`, vid 10 (R53). -/
def presetCrc64Ecma : ParamSet :=
  { width := .w64, polynomial := 0x42F0E1EBA9EA3693, init := 0, reflectIn := false, reflectOut := false, xorout := 0, kind := .table }

/-- `crc_64_we`, vid 11 (R53). -/
def presetCrc64We : ParamSet :=
  { width := .w64, polynomial := 0x42F0E1EBA9EA3693, init := 0xFFFFFFFFFFFFFFFF, reflectIn := false, reflectOut := false,
    xorout := 0xFFFFFFFFFFFFFFFF, kind := .table }

/-- The default value of `PRESETS` (R53). Its cells marked G or GV there are PRESUMED by the spec itself (log entry 4). -/
def defaultPresets : List ParamSet :=
  [ presetCrc8, presetCrc16, presetModbus, presetCcitt1d0f, presetCcittFfff, presetXmodem, presetDnp, presetKermit, presetSick,
    presetCrc32, presetCrc64Ecma, presetCrc64We ]

/-- The variant names of the default ROM, in variant-number order (R98). -/
def variantNames : List String :=
  [ "crc_8", "crc_16", "crc_modbus", "crc_ccitt_1d0f", "crc_ccitt_ffff", "crc_xmodem", "crc_dnp", "crc_kermit", "crc_sick", "crc_32",
    "crc_64_ecma", "crc_64_we" ]

/-- The default configuration: R53, every variant enabled (R8), `AW = 64` (R10's suggested value), `MemErr` empty (R12).
DESIGN CHOICE (log entry 4). -/
def Config.default : Config :=
  { aw := 64, presets := defaultPresets, enabled := List.range 12, memErr := [] }

/-- The Parameter Set of a valid variant number (R57): `vid < NVAR` and `vid` in `ENABLED`; none where it is not valid. -/
def Config.variant? (c : Config) (vid : BitVec 4) : Option ParamSet :=
  if vid.toNat ∈ c.enabled then c.presets[vid.toNat]? else none

/-- The Parameter Set of a valid variant number of kind `table` (R58, R204 b). -/
def Config.tableVariant? (c : Config) (vid : BitVec 4) : Option ParamSet :=
  match c.variant? vid with
  | some P => if P.kind = .table then some P else none
  | none => none

/-- One variant's share in the assignment of table ids (R52): a new key takes the next unused number. -/
def addKey (ks : List Key) (P : ParamSet) : List Key :=
  if P.kind = .table ∧ P.toKey ∉ ks then ks ++ [P.toKey] else ks

/-- `key(t)` for `t = 0, 1, ...` (R52), from all of `PRESETS`, whether enabled or not (D27). `NTAB` is the length (R9). -/
def Config.keys (c : Config) : List Key := c.presets.foldl addKey []

/-- `NTAB` (R9). -/
def Config.ntab (c : Config) : Nat := c.keys.length

/-- `tid(v)` (R52) of a variant with Parameter Set `P`. -/
def Config.tid (c : Config) (P : ParamSet) : Nat := c.keys.idxOf P.toKey

end Sys2Proof
end

