-- ==== Sys2Proof/Machine/State.lean ====
section
/-! DEFINITION. The state of the block (R20), of the platform's buffer memory and of the host's actions to come, and the state after reset (R36). -/

namespace Sys2Proof.Machine

/-- Why the machine stops. No command of the block ever does: a block fault (R200) is a recorded NEXT state. -/
inductive Fault where
  /-- Raised by the platform's memory write (`HostAction.memWrite`) to an address outside the buffer space, `2^AW` or
  above: the spec gives no such address (R71). Safe: the model stops where the spec gives nothing. -/
  | noSuchAddress
  deriving DecidableEq, Repr

/-- Why a step is refused. -/
inductive Refusal where
  /-- A command without a meaning: raised by no arm, since every command has its meaning. Safe. -/
  | notModelled (mnemonic : String)
  deriving DecidableEq, Repr

/-- The eight host registers, numbers 0 to 7 in this order (`10_state.md` section 2). The host has no other access,
DESIGN CHOICE (log entry 20). -/
inductive Reg where
  | cmd | crc | prev | baddr | blen | result | status | einfo
  deriving DecidableEq, Repr

/-- One action of the host or of its platform (R16, R79, R175, R239). -/
inductive HostAction where
  /-- `HostRead` (R172). -/
  | read (r : Reg)
  /-- `HostWrite` (R173); a write to `CMD` executes a command (R174). -/
  | write (r : Reg) (v : Word)
  /-- The reset input (R230). -/
  | reset
  /-- The platform stores a byte in the memory the buffer port reads (R79). DESIGN CHOICE (log entry 11). -/
  | memWrite (a : Word) (b : Byte)
  deriving DecidableEq, Repr

/-- What is read from a byte of buffer memory that nothing has written. DESIGN CHOICE (log entry 10). -/
def unlistedByte : Byte := 0

/-- The whole state. -/
structure State where
  /-- `CRC` (R22). -/
  crc : Word
  /-- `PREV` (R23). -/
  prev : Byte
  /-- `BADDR` (R24): bits `AW` and above are 0. DESIGN CHOICE (log entry 9). -/
  baddr : Word
  /-- `BLEN` (R25). -/
  blen : Word
  /-- `RESULT` (R26). -/
  result : Word
  /-- `ERR`, `STATUS[3:0]` (R28). -/
  err : BitVec 4
  /-- `FLT`, `STATUS[4]` (R28). -/
  flt : Bool
  /-- `EINFO` (R29). -/
  einfo : Word
  /-- `tvalid[t]`, bit `t`, shown as `STATUS[16+t]` (R28, R30). -/
  tvalid : BitVec 16
  /-- `tent[t][i]` (R30), each entry zero-extended to 64 bits. DESIGN CHOICE (log entry 8). -/
  tent : Vector (Vector Word 256) 16
  /-- The platform's buffer memory (R71), in canonical form. -/
  mem : List Host.Cell
  /-- The host's actions to come, oldest first. The model's own field (log entry 1). -/
  pending : List HostAction
  /-- The value the last `HostRead` returned. The model's own field (log entry 2). -/
  rdata : Word
  /-- The configuration, which no step changes (R35, R231; log entry 3). -/
  cfg : Config
  deriving DecidableEq, Repr

/-- The state after reset (R36), with the default configuration. The table entries are without value there; 0 stands for
them, DESIGN CHOICE (log entry 7). -/
def State.reset : State :=
  { crc := 0, prev := 0, baddr := 0, blen := 0, result := 0, err := 0, flt := false, einfo := 0, tvalid := 0,
    tent := Vector.replicate 16 (Vector.replicate 256 0), mem := [], pending := [], rdata := 0, cfg := Config.default }

end Sys2Proof.Machine
end

