-- ==== Sys2Proof/Machine/Ops.lean ====
section
/-! DEFINITION. The named operations over memory, the block registers and the table store, the fault record (R208) and the reset event (R230). -/

namespace Sys2Proof.Machine

/-- The canonical form of memory: addresses strictly rising, no entry equal to what an unlisted address reads as. -/
abbrev Memory.wf (m : List Host.Cell) : Prop :=
  m.Pairwise (fun x y => x.1 < y.1) ∧ ∀ c ∈ m, c.2 ≠ unlistedByte

/-- The byte at an address. -/
def memGet : List Host.Cell → Nat → Byte
  | [], _ => unlistedByte
  | (k, v) :: rest, a => if k = a then v else memGet rest a

/-- A cell before `rest`, left out where it equals what an unlisted address reads as. -/
def memCons (a : Nat) (b : Byte) (rest : List Host.Cell) : List Host.Cell :=
  if b = unlistedByte then rest else (a, b) :: rest

/-- The memory with `b` at address `a`, in canonical form again. -/
def memSet : List Host.Cell → Nat → Byte → List Host.Cell
  | [], a, b => memCons a b []
  | (k, v) :: rest, a, b =>
    if a < k then memCons a b ((k, v) :: rest)
    else if a = k then memCons a b rest
    else (k, v) :: memSet rest a b

/-- `MemRead(addr, 1)` (R71): none is the outcome `error`. -/
def memRead (s : State) (a : Nat) : Option Byte :=
  if a ∈ s.cfg.memErr then none else some (memGet s.mem a)

/-- The bytes at `a, a+1, ..., a+n-1`, read in that order (R74), or the first address whose read answers `error` (R77). -/
def readBuffer (s : State) : Nat → Nat → Except Nat (List Byte)
  | _, 0 => .ok []
  | a, n + 1 =>
    match memRead s a with
    | none => .error a
    | some b =>
      match readBuffer s (a + 1) n with
      | .error e => .error e
      | .ok bs => .ok (b :: bs)

/-- `CRC[W-1:0]` (R22): what a command of width `W` reads. -/
def readCrc (s : State) (w : Nat) : BitVec w := toWidth w s.crc

/-- `CRC <- zext_64(v)` (R22). -/
def writeCrc (s : State) {w : Nat} (v : BitVec w) : State := { s with crc := toWidth 64 v }

/-- `PREV <- c` (R23). -/
def writePrev (s : State) (c : Byte) : State := { s with prev := c }

/-- `BADDR <- v[AW-1:0]` (R24). -/
def writeBaddr (s : State) (v : Word) : State := { s with baddr := toWidth 64 (toWidth s.cfg.aw v) }

/-- `BLEN <- v` (R25). -/
def writeBlen (s : State) (v : Word) : State := { s with blen := v }

/-- `RESULT <- zext_64(v)` (R26). -/
def writeResult (s : State) {w : Nat} (v : BitVec w) : State := { s with result := toWidth 64 v }

/-- `tent[t][i]` (R30), as it is stored; the store has no slot from 16 on. -/
def entry (s : State) (t : Nat) (i : Byte) : Word :=
  if h : t < 16 then s.tent[t][i.toNat] else 0

/-- `tvalid[t]` (R30). -/
def slotValid (s : State) (t : Nat) : Bool := s.tvalid.getLsbD t

/-- Slot `t` filled with `T` and made valid (R114). -/
def fillSlot (s : State) (t : Nat) (T : Vector Word 256) : State :=
  { s with tent := s.tent.setIfInBounds t T, tvalid := s.tvalid ||| BitVec.twoPow 16 t }

/-- The faults of the block (R201). -/
inductive BlockFault where
  | invalidArgument | illegalCommand | illegalVariant | bufferRange | busError
  deriving DecidableEq, Repr

/-- The fault codes (R201). -/
def BlockFault.code : BlockFault → BitVec 4
  | .invalidArgument => 1
  | .illegalCommand => 2
  | .illegalVariant => 3
  | .bufferRange => 4
  | .busError => 5

/-- Fault entry, `raise F(info)` (R208): the first fault since reset is recorded in `ERR` and `EINFO`, `FLT` is set, and
nothing else changes. There is no handler and so no return beside it (R210). -/
def raise (s : State) (f : BlockFault) (info : Word) : State :=
  { s with
    err := if s.err = 0 then f.code else s.err
    einfo := if s.err = 0 then info else s.einfo
    flt := true }

/-- `raise F(w)` for the command word `w` of `i` (R208). A legal word is the encoding of its command (R94). -/
def raiseCmd (s : State) (f : BlockFault) (i : Instr) : State := raise s f (toWidth 64 (encode i))

/-- The reset event (R36, R230): every piece of the block's state at its reset value. The configuration is no state
(R231); the platform's memory and the host are not the block's (log entry 19). -/
def resetBlock (s : State) : State :=
  { State.reset with mem := s.mem, pending := s.pending, rdata := s.rdata, cfg := s.cfg }

/-- The host's number of a register (`10_state.md` section 2). -/
def Reg.num : Reg → Nat
  | .cmd => 0
  | .crc => 1
  | .prev => 2
  | .baddr => 3
  | .blen => 4
  | .result => 5
  | .status => 6
  | .einfo => 7

/-- The register's byte offset on a memory-mapped host bus, `8 * n` (`10_state.md` section 2, D23). -/
def Reg.offset (r : Reg) : Nat := 8 * r.num

end Sys2Proof.Machine
end

