-- ==== Sys2Proof/Machine/Flags.lean ====
section
/-! DEFINITION. The block's two flags: `FLT` on completion (R28, R174) and the assembly of `STATUS` (R28, R172). -/

namespace Sys2Proof.Machine

/-- `STATUS.FLT <- 0`: the last act of a command that completes (R174). -/
def complete (s : State) : State := { s with flt := false }

/-- `STATUS` as it is read (R28): reserved, `TVALID`, reserved, `FLT`, `ERR`, from the top bit down. -/
def statusWord (s : State) : Word := 0#32 ++ s.tvalid ++ 0#11 ++ BitVec.ofBool s.flt ++ s.err

end Sys2Proof.Machine
end

