-- ==== Sys2Proof/Machine/Operands.lean ====
section
/-! DEFINITION. The operand forms of the commands: the variant's slot (R52, R92) and the buffer of COMPUTE (R75, R76). -/

namespace Sys2Proof.Machine

/-- Entry `i` of slot `t` at width `w`: the lookup table a command reads (R30). -/
def slotTable (s : State) (t w : Nat) (i : Byte) : BitVec w := toWidth w (entry s t i)

/-- `a = BADDR`, as a natural number (R76). -/
def bufAddr (s : State) : Nat := s.baddr.toNat

/-- `n = BLEN`, as a natural number (R76). -/
def bufLen (s : State) : Nat := s.blen.toNat

/-- The absent buffer with a nonzero length (R75, R202). -/
def nullBuffer (s : State) : Bool := decide (bufAddr s = 0) && decide (bufLen s ≠ 0)

/-- The buffer would pass the top of the address space (R76, R205). -/
def bufferPastTop (s : State) : Bool := decide (bufAddr s + bufLen s > 2 ^ s.cfg.aw)

end Sys2Proof.Machine
end

