-- ==== Sys2Proof/Machine/TableBuilder.lean ====
section
/-! DEFINITION. The Table Builder: `build_entry`, `build_table`, `ensure_table` (R110 to R114), and the commands TBUILD and TREAD (R115, R116). -/

namespace Sys2Proof.Machine

/-- The seed of an entry: the byte at the top (R110) or as the low byte (R111). -/
def seed (k : Key) (b : Byte) : BitVec k.W :=
  if k.reflectIn then toWidth k.W b else shl (toWidth k.W b) (k.W - 8)

/-- One of the eight bit steps (R110, R111): the edge bit is tested before the shift. -/
def bitStep (k : Key) (r : BitVec k.W) : BitVec k.W :=
  if k.reflectIn then
    if r.getLsbD 0 then shr r 1 ^^^ k.polynomial else shr r 1
  else
    if r.getLsbD (k.W - 1) then shl r 1 ^^^ k.polynomial else shl r 1

/-- Eight bit steps. -/
def eightSteps (k : Key) (r : BitVec k.W) : BitVec k.W := (bitStep k)^[8] r

/-- `build_entry` (R110, R111). -/
def buildEntry (k : Key) (b : Byte) : BitVec k.W := eightSteps k (seed k b)

/-- `build_table` (R112): 256 entries, entry `b` at index `b`. -/
def buildTable (k : Key) : Vector (BitVec k.W) 256 := Vector.ofFn fun i => buildEntry k (BitVec.ofNat 8 i.val)

/-- Entry `b` of `build_table` (R112). -/
def tableAt (k : Key) (b : Byte) : BitVec k.W := (buildTable k)[b.toNat]

/-- `build_table` as the table store holds it, zero-extended (log entry 8). -/
def storedTable (k : Key) : Vector Word 256 := Vector.ofFn fun i => toWidth 64 (buildEntry k (BitVec.ofNat 8 i.val))

/-- `ensure_table(t)` (R114): a slot that is not valid is built whole and then made valid; a valid one is left alone. -/
def ensureTable (s : State) (t : Nat) : State :=
  if slotValid s t then s
  else match s.cfg.keys[t]? with
    | some k => fillSlot s t (storedTable k)
    | none => s

/-- `TBUILD variant` (R115). -/
def execTbuild (vid : BitVec 4) (s : State) : Host.Outcome State Fault Refusal :=
  match s.cfg.tableVariant? vid with
  | none => .next (raiseCmd s .illegalVariant (.tbuild vid))
  | some P => .next (complete (ensureTable s (s.cfg.tid P)))

/-- `TREAD variant, #index` (R116). -/
def execTread (vid : BitVec 4) (index : Byte) (s : State) : Host.Outcome State Fault Refusal :=
  match s.cfg.tableVariant? vid with
  | none => .next (raiseCmd s .illegalVariant (.tread vid index))
  | some P =>
    let built := ensureTable s (s.cfg.tid P)
    .next (complete (writeResult built (slotTable built (s.cfg.tid P) P.W index)))

end Sys2Proof.Machine
end

