-- ==== Sys2Proof/Machine/BufferEngine.lean ====
section
/-! DEFINITION. The Buffer Engine: `fold_byte`, `finalize`, `compute` (R130 to R133), the Sick fold (R138), and the command COMPUTE (R134). -/

namespace Sys2Proof.Machine

/-- `fold_byte` (R130, R131), with the 256 entries of the table `T`. -/
def foldByte (k : Key) (T : Byte → BitVec k.W) (reg : BitVec k.W) (c : Byte) : BitVec k.W :=
  if k.reflectIn then T (lowByte reg ^^^ c) ^^^ shr reg 8
  else T (topByte reg ^^^ c) ^^^ shl reg 8

/-- `finalize` (R132): the register is bit-reversed exactly where the two flags differ (C1), then `xorout` is applied. -/
def finalize (P : ParamSet) (reg : BitVec P.W) : BitVec P.W :=
  (if P.reflectOut ≠ P.reflectIn then bitrev reg else reg) ^^^ P.xorout

/-- The whole-buffer function over the entries of a table `T` (R133, R134). -/
def computeWith (P : ParamSet) (T : Byte → BitVec P.W) (B : List Byte) : BitVec P.W :=
  finalize P (B.foldl (foldByte P.toKey T) P.init)

/-- `compute(P, B)` (R133). -/
def compute (P : ParamSet) (B : List Byte) : BitVec P.W := computeWith P (tableAt P.toKey) B

/-- One byte of the Sick fold: the register is stepped and the byte becomes the previous byte (R138, R156). -/
def sickFold (f : BitVec 16 → Byte → Byte → BitVec 16) (rp : BitVec 16 × Byte) (c : Byte) : BitVec 16 × Byte :=
  (f rp.1 c rp.2, c)

/-- `compute_sick(P, B)` (R138) for a given byte step `f`; the previous byte is 0x00 before the first byte.
The width is 16 by R51; what another width would give is a DESIGN CHOICE (log entry 15). -/
def computeSickWith (f : BitVec 16 → Byte → Byte → BitVec 16) (P : ParamSet) (B : List Byte) : BitVec P.W :=
  finalize P (toWidth P.W (B.foldl (sickFold f) (toWidth 16 P.init, 0)).1)

/-- `compute_sick(P, B)` (R138) with the open `sick_step`. -/
def computeSick (P : ParamSet) (B : List Byte) : BitVec P.W := computeSickWith Config.sickStep P B

/-- The loop of COMPUTE and its closing step (R134), once the operands are accepted: `f` makes the result of the bytes.
DEDUCED: reading all bytes first ends in the same state as the spec's interleaved loop (log entry 18). -/
def foldInto (s : State) {w : Nat} (f : List Byte → BitVec w) : State :=
  match readBuffer s (bufAddr s) (bufLen s) with
  | .error a => raise s .busError (BitVec.ofNat 64 a)
  | .ok B => complete (writeResult s (f B))

/-- `COMPUTE variant` (R134), its checks in the order of R207. -/
def execCompute (vid : BitVec 4) (s : State) : Host.Outcome State Fault Refusal :=
  match s.cfg.variant? vid with
  | none => .next (raiseCmd s .illegalVariant (.compute vid))
  | some P =>
    if nullBuffer s then .next (raiseCmd s .invalidArgument (.compute vid))
    else if bufferPastTop s then .next (raiseCmd s .bufferRange (.compute vid))
    else match P.kind with
      | .table =>
        let built := ensureTable s (s.cfg.tid P)
        .next (foldInto built (computeWith P (slotTable built (s.cfg.tid P) P.W)))
      | .sick => .next (foldInto s (computeSick P))

end Sys2Proof.Machine
end

