-- ==== Sys2Proof/Machine/Incremental.lean ====
section
/-! DEFINITION. The Incremental Engine: the function `step` (R150) and the commands CINIT, STEP and CFINAL (R151 to R153, R156). -/

namespace Sys2Proof.Machine

/-- `step(P, reg, byte)` (R150), of the key alone (R158). -/
def stepByte (k : Key) (reg : BitVec k.W) (c : Byte) : BitVec k.W := foldByte k (tableAt k) reg c

/-- `CINIT variant` (R151): `PREV` is cleared for the Sick kind only, DEDUCED against a note of the opcode table (log
entry 14). -/
def execCinit (vid : BitVec 4) (s : State) : Host.Outcome State Fault Refusal :=
  match s.cfg.variant? vid with
  | none => .next (raiseCmd s .illegalVariant (.cinit vid))
  | some P =>
    match P.kind with
    | .table => .next (complete (writeCrc s P.init))
    | .sick => .next (complete (writePrev (writeCrc s P.init) 0))

/-- `STEP variant, #byte` (R152, R156). -/
def execStep (vid : BitVec 4) (c : Byte) (s : State) : Host.Outcome State Fault Refusal :=
  match s.cfg.variant? vid with
  | none => .next (raiseCmd s .illegalVariant (.step vid c))
  | some P =>
    match P.kind with
    | .table =>
      let built := ensureTable s (s.cfg.tid P)
      let reg := foldByte P.toKey (slotTable built (s.cfg.tid P) P.W) (readCrc s P.W) c
      .next (complete (writeCrc built reg))
    | .sick => .next (complete (writePrev (writeCrc s (Config.sickStep (readCrc s 16) c s.prev)) c))

/-- `CFINAL variant` (R153). -/
def execCfinal (vid : BitVec 4) (s : State) : Host.Outcome State Fault Refusal :=
  match s.cfg.variant? vid with
  | none => .next (raiseCmd s .illegalVariant (.cfinal vid))
  | some P => .next (complete (writeResult s (finalize P (readCrc s P.W))))

end Sys2Proof.Machine
end

