-- ==== Sys2Proof/Machine/System.lean ====
section
/-! DEFINITION. The system commands NOP (R170) and SRESET (R171). -/

namespace Sys2Proof.Machine

/-- `NOP` (R170): `STATUS.FLT <- 0`. -/
def execNop (s : State) : Host.Outcome State Fault Refusal := .next (complete s)

/-- `SRESET` (R171): the same effect as the reset input. -/
def execSreset (s : State) : Host.Outcome State Fault Refusal := .next (resetBlock s)

end Sys2Proof.Machine
end

