-- ==== Sys2Proof/Machine/Dispatch.lean ====
section
/-! DEFINITION. One arm per command (R174, second part): each calls the command's meaning. -/

namespace Sys2Proof.Machine

def exec (i : Instr) (s : State) : Host.Outcome State Fault Refusal :=
  match i with
  | .nop => Sys2Proof.Machine.execNop s
  | .tbuild vid => Sys2Proof.Machine.execTbuild vid s
  | .tread vid index => Sys2Proof.Machine.execTread vid index s
  | .cinit vid => Sys2Proof.Machine.execCinit vid s
  | .step vid c => Sys2Proof.Machine.execStep vid c s
  | .cfinal vid => Sys2Proof.Machine.execCfinal vid s
  | .compute vid => Sys2Proof.Machine.execCompute vid s
  | .sreset => Sys2Proof.Machine.execSreset s

end Sys2Proof.Machine
end

