-- ==== Sys2Proof/Machine/HostPort.lean ====
section
/-! DEFINITION. The host port: HostRead and HostWrite (R172, R173), execution of a command word (R174), the reset input (R230), the platform's memory write, and the source's named operations as host actions (R99). -/

namespace Sys2Proof.Machine

/-- `HostRead(n)` (R172): a value, and no change of state. -/
def hostRead (s : State) : Reg → Word
  | .cmd => 0
  | .crc => s.crc
  | .prev => toWidth 64 s.prev
  | .baddr => s.baddr
  | .blen => s.blen
  | .result => s.result
  | .status => statusWord s
  | .einfo => s.einfo

/-- Executing a command word (R174): an illegal one raises `IllegalCommand` with the word (R203). -/
def execWord (w : CmdWord) (s : State) : Host.Outcome State Fault Refusal :=
  match decode w with
  | .ok i => exec i s
  | .error _ => .next (raise s .illegalCommand (toWidth 64 w))

/-- `HostWrite(n, v)` (R173). -/
def hostWrite (r : Reg) (v : Word) (s : State) : Host.Outcome State Fault Refusal :=
  match r with
  | .cmd => execWord (toWidth 32 v) s
  | .crc => .next (writeCrc s v)
  | .prev => .next (writePrev s (toWidth 8 v))
  | .baddr => .next (writeBaddr s v)
  | .blen => .next (writeBlen s v)
  | .result => .next s
  | .status => .next s
  | .einfo => .next s

/-- The platform stores a byte (R79). The buffer space ends at `2^AW` (R71): there is no address beyond (log entry 11). -/
def platformWrite (a : Word) (b : Byte) (s : State) : Host.Outcome State Fault Refusal :=
  if a.toNat < 2 ^ s.cfg.aw then .next { s with mem := memSet s.mem a.toNat b } else .fault .noSuchAddress

/-- One host action (R16, R79). -/
def hostAct (act : HostAction) (s : State) : Host.Outcome State Fault Refusal :=
  match act with
  | .read r => .next { s with rdata := hostRead s r }
  | .write r v => hostWrite r v s
  | .reset => .next (resetBlock s)
  | .memWrite a b => platformWrite a b s

/-- The oldest pending host action is performed (R79); with none pending the block is idle and holds its state (R214). -/
def nextAction (s : State) : Host.Outcome State Fault Refusal :=
  match s.pending with
  | [] => .next s
  | act :: rest => hostAct act { s with pending := rest }

/-- The host's write of a command to `CMD` (R27). -/
def issue (i : Instr) : HostAction := .write .cmd (toWidth 64 (encode i))

/-- A run (R239): host actions one after another from a start state, stopping where one stops. Its end is the state after
the last. -/
def runActions : List HostAction → State → Host.Outcome State Fault Refusal
  | [], s => .next s
  | act :: rest, s =>
    match hostAct act s with
    | .next t => runActions rest t
    | .fault f => .fault f
    | .refused r => .refused r

/-- A whole-buffer operation `name(buf, len)` of the source (R99), `name` the variant `vid`. -/
def wholeBufferOp (vid : BitVec 4) (buf len : Word) : List HostAction :=
  [.write .baddr buf, .write .blen len, issue (.compute vid), .read .status, .read .result]

/-- An incremental operation `update_...(crc, c)` of the source (R99), with the variant `vid` of the table there. -/
def updateOp (vid : BitVec 4) (crc : Word) (c : Byte) : List HostAction :=
  [.write .crc crc, issue (.step vid c), .read .crc]

/-- `update_crc_sick(crc, c, prev)` of the source (R99). -/
def updateSickOp (vid : BitVec 4) (crc : Word) (c prev : Byte) : List HostAction :=
  [.write .crc crc, .write .prev (toWidth 64 prev), issue (.step vid c), .read .crc]

/-- The commands of a bracketed stream over the bytes `B` (R154, R234). -/
def streamCommands (vid : BitVec 4) (B : List Byte) : List Instr :=
  .cinit vid :: (B.map (.step vid) ++ [.cfinal vid])

/-- Commands one after another (R79, R82), stopping where one stops. -/
def execAll : List Instr → State → Host.Outcome State Fault Refusal
  | [], s => .next s
  | i :: rest, s =>
    match exec i s with
    | .next s' => execAll rest s'
    | .fault f => .fault f
    | .refused r => .refused r

end Sys2Proof.Machine
end

