-- ==== Sys2Proof/Machine/Step.lean ====
section
/-! DEFINITION. One step of the machine, and the placing of a command where the next step takes it. -/

namespace Sys2Proof.Machine

/-- One step: one host action (R16, R79). A command is one step, with no middle and a stable buffer: DESIGN CHOICE (log
entries 1, 12 and 13). -/
def step (s : State) : Host.Outcome State Fault Refusal := nextAction s

/-- `s` with the host's write of the word to `CMD` as its next action. The block fetches nothing (R34): a command comes
from the host (log entry 1). -/
def State.withFetchWord (s : State) (nbits w : Nat) : State :=
  { s with pending := .write .cmd (toWidth 64 (tableWord nbits w)) :: s.pending }

end Sys2Proof.Machine
end

