-- ==== Sys2Proof/Machine/Nmea.lean ====
section
/-! DEFINITION. The NMEA checksum (R190 to R192). It is outside the block (R5, D29): no command and no state of the machine uses it; it is here so that the source's fourth component has its meaning too. DESIGN CHOICE (log entry 16). -/

namespace Sys2Proof.Machine

/-- `checksum_nmea_acc(input)` (R190): the XOR of all bytes, from 0. -/
def nmeaAcc (input : List Byte) : Byte := input.foldl (fun acc c => acc ^^^ c) 0

/-- `hexdigit(d)` (R191), as an ASCII code. -/
def hexDigit (d : BitVec 4) : Byte :=
  if d.toNat ≤ 9 then BitVec.ofNat 8 (0x30 + d.toNat) else BitVec.ofNat 8 (0x41 + (d.toNat - 10))

/-- `checksum_nmea(input)` (R191): two uppercase hexadecimal digits, high digit first. -/
def checksumNmea (input : List Byte) : Byte × Byte :=
  (hexDigit ((nmeaAcc input).extractLsb' 4 4), hexDigit ((nmeaAcc input).extractLsb' 0 4))

/-- The software function's typed failure (R190): an absent buffer with a nonzero declared length. `none` is the absent
buffer; a present one is given as its bytes. -/
def nmeaCall (buffer : Option (List Byte)) (len : Nat) : Option (Byte × Byte) :=
  match buffer with
  | none => if len = 0 then some (checksumNmea []) else none
  | some input => some (checksumNmea input)

end Sys2Proof.Machine
end

