-- ==== Sys2Proof/Machine/CheckValues.lean ====
section
/-! DEFINITION. The check values the source states (R55), which every preset ROM meets (R7). -/

namespace Sys2Proof.Machine

/-- `M9` (R55): the bytes of ASCII "123456789". -/
def checkBuffer : List Byte := [0x31, 0x32, 0x33, 0x34, 0x35, 0x36, 0x37, 0x38, 0x39]

/-- The six equalities of R55: a variant number (R98) and the value of `compute` over `M9`. -/
def attestedValues : List (Nat × Nat) :=
  [(0, 0xF4), (1, 0xBB3D), (9, 0xCBF43926), (4, 0x29B1), (5, 0x31C3), (7, 0x2189)]

/-- A preset ROM meets the six equalities. `compute` is of `table`-kind Parameter Sets (R133), so each of the six variants
is one. -/
abbrev AttestedChecks (presets : List ParamSet) : Prop :=
  ∀ vx ∈ attestedValues, ∃ P ∈ presets[vx.1]?, P.kind = .table ∧ (compute P checkBuffer).toNat = vx.2

end Sys2Proof.Machine
end

