-- ==== Sys2Proof/WellFormed.lean ====
section
/-! DEFINITION. Well-formedness of a Parameter Set (R51), of a configuration (R6 to R12, R55) and of a command under a configuration (R57, R204). -/

namespace Sys2Proof

/-- R51. The widths and the ranges of the constants hold by their types; what is left is the Sick kind's shape. -/
def ParamSet.wf (P : ParamSet) : Bool :=
  match P.kind with
  | .table => true
  | .sick => decide (P.width = .w16) && !P.reflectIn

/-- A configuration of this block (R7 with R51 and R55, R8, R10, R12). `NTAB <= 16` (R9) follows from `NVAR <= 16`.
DEDUCED (the presence of R55's variants) and DESIGN CHOICE (U15): other configurations exist in the type and this check
excludes them (log entry 21). -/
def Config.wf (c : Config) : Bool :=
  decide (1 ≤ c.aw) && decide (c.aw ≤ 64)
    && decide (1 ≤ c.presets.length) && decide (c.presets.length ≤ 16) && c.presets.all ParamSet.wf
    && c.enabled.all (fun v => decide (v < c.presets.length))
    && c.memErr.all (fun a => decide (a < 2 ^ c.aw))
    && decide (Machine.AttestedChecks c.presets)

/-- A command that names no variant it may not name (R57, R58, R204). Every value of `Instr` has an encoding by the types
of its fields; this says which of them do not fault `IllegalVariant`. -/
def Instr.wf (c : Config) : Instr → Bool
  | .nop => true
  | .tbuild vid => (c.tableVariant? vid).isSome
  | .tread vid _ => (c.tableVariant? vid).isSome
  | .cinit vid => (c.variant? vid).isSome
  | .step vid _ => (c.variant? vid).isSome
  | .cfinal vid => (c.variant? vid).isSome
  | .compute vid => (c.variant? vid).isSome
  | .sreset => true

end Sys2Proof
end

