-- ==== Sys2Proof/Safety.lean ====
section
/-! DEFINITION. The invariant of the machine's states and what a run that went wrong is (R239), in the terms the claims use. -/

namespace Sys2Proof.Machine

/-- R31, with R28 and R30: a valid slot is one of the `NTAB` slots and holds its key's table. -/
structure TablesRight (s : State) : Prop where
  /-- `TVALID` bits for `t >= NTAB` are 0 (R28). -/
  unused : ∀ t, slotValid s t = true → t < s.cfg.ntab
  /-- `tent[t][i] = build_entry(key(t), i)` whenever `tvalid[t] = 1` (R31). -/
  contents : ∀ t k, slotValid s t = true → s.cfg.keys[t]? = some k → ∀ i, entry s t i = toWidth 64 (buildEntry k i)

/-- What every step keeps, from any state that has it. -/
structure State.Inv (s : State) : Prop where
  /-- The configuration is one of this block (R6 to R12), whose ROM meets R51 and R55. -/
  cfg : s.cfg.wf = true
  /-- Memory is in canonical form. -/
  mem : Memory.wf s.mem
  /-- Memory lies in the buffer space (R70). -/
  memRange : ∀ c ∈ s.mem, c.1 < 2 ^ s.cfg.aw
  /-- `BADDR` has `AW` bits (R24). -/
  baddr : s.baddr.toNat < 2 ^ s.cfg.aw
  /-- No fault code above 5 is recorded (R201). -/
  err : s.err.toNat ≤ 5
  /-- `EINFO = 0` when `ERR = 0` (R29). -/
  einfo : s.err = 0 → s.einfo = 0
  /-- A command that faulted has left a fault on record (R208, R210). -/
  flt : s.flt = true → s.err ≠ 0
  /-- The table store is right (R31). -/
  tables : TablesRight s

/-- The values of R36: every register 0 and no slot valid. The entries have no value there. -/
structure IsResetState (t : State) : Prop where
  crc : t.crc = 0
  prev : t.prev = 0
  baddr : t.baddr = 0
  blen : t.blen = 0
  result : t.result = 0
  err : t.err = 0
  flt : t.flt = false
  einfo : t.einfo = 0
  tvalid : ∀ n, slotValid t n = false

/-- Slot `n` of key `k` as `ensure_table` leaves it (R114): valid, with what it held where it was valid and the key's table
where it was not; no other slot changed. -/
structure SlotEnsured (s t : State) (n : Nat) (k : Key) : Prop where
  valid : slotValid t n = true
  built : ∀ i, entry t n i = if slotValid s n then entry s n i else toWidth 64 (buildEntry k i)
  others : ∀ u, u ≠ n → slotValid t u = slotValid s u ∧ ∀ i, entry t u i = entry s u i

/-- The words of the commands `p` describes are those a row of the opcode map selects (R93). -/
def WordsAre (p : Instr → Prop) (mask pattern : CmdWord) : Prop :=
  ∀ w, (∃ i, decode w = .ok i ∧ p i) ↔ w &&& mask = pattern

/-- A command faults with a code and an information, and changes nothing but the fault record (R208, R209). -/
def FaultsWith (i : Instr) (s : State) (code : BitVec 4) (info : Word) : Prop :=
  exec i s = .next { s with
    flt := true
    err := if s.err = 0 then code else s.err
    einfo := if s.err = 0 then info else s.einfo }

/-- COMPUTE accepts `BADDR` and `BLEN`: no absent buffer with a nonzero length (R75) and no buffer past the top (R76). -/
def BufferAccepted (s : State) : Prop :=
  (s.baddr = 0 → s.blen = 0) ∧ s.baddr.toNat + s.blen.toNat ≤ 2 ^ s.cfg.aw

/-- The buffer `BADDR` and `BLEN` describe is readable and holds the bytes `B` (R72, R74). -/
def BufferHolds (s : State) (B : List Byte) : Prop :=
  B.length = s.blen.toNat ∧ ∀ i (h : i < B.length), memRead s (s.baddr.toNat + i) = some B[i]

/-- The whole-buffer result of a Parameter Set of either kind (R133, R138), as `RESULT` holds it. -/
def wholeResult (P : ParamSet) (B : List Byte) : Word :=
  match P.kind with
  | .table => toWidth 64 (compute P B)
  | .sick => toWidth 64 (computeSick P B)

/-- Two states that differ in the table store at most. -/
def SameButTableStore (s t : State) : Prop := t = { s with tvalid := t.tvalid, tent := t.tent }

/-- Two states that differ in table entries at most. -/
def SameButEntries (s t : State) : Prop := t = { s with tent := t.tent }

/-- Some byte of the buffer cannot be read (R77). -/
def bufferUnreadable (s : State) : Bool :=
  !(List.range s.blen.toNat).all fun j => (memRead s (s.baddr.toNat + j)).isSome

/-- The code of the one fault a command word raises, 0 where it raises none: the order of R207. -/
def faultCode (w : CmdWord) (s : State) : BitVec 4 :=
  match decode w with
  | .error _ => 2
  | .ok i =>
    if i.wf s.cfg = false then 3
    else match i with
      | .compute _ =>
        if s.baddr = 0 ∧ s.blen ≠ 0 then 1
        else if s.baddr.toNat + s.blen.toNat > 2 ^ s.cfg.aw then 4
        else if bufferUnreadable s then 5
        else 0
      | _ => 0

/-- The host action is a command that faults from `s`: `FLT` is 1 after it (R28). -/
def actionFaults (s : State) (act : HostAction) : Bool :=
  match act with
  | .write .cmd v =>
    match execWord (toWidth 32 v) s with
    | .next t => t.flt
    | _ => false
  | _ => false

/-- The host action erases the fault record: the reset input or SRESET (R239). -/
def erasesRecord (act : HostAction) : Bool :=
  match act with
  | .reset => true
  | .write .cmd v => decide (decode (toWidth 32 v) = .ok .sreset)
  | _ => false

/-- The run contains a reset or SRESET after a fault (R239): some command of it faults and a later action erases the record. -/
def faultErased : State → List HostAction → Bool
  | _, [] => false
  | s, act :: rest =>
    match hostAct act s with
    | .next t => (actionFaults s act && rest.any erasesRecord) || faultErased t rest
    | _ => false

/-- The run of the actions from `s` went wrong (R239): it leaves a fault on record in its final state, or, where that record
is no measure because a reset or SRESET came after a fault, it had that fault. DEDUCED: the rule gives the second case no
verdict by `ERR` and says why (log entry 22). -/
def WentWrong (s : State) (acts : List HostAction) : Prop :=
  ∃ t, runActions acts s = .next t ∧ (t.err ≠ 0 ∨ faultErased s acts = true)

end Sys2Proof.Machine
end

