-- ==== Sys2Proof/Certificates/Slice0/Obligations.lean ====
section
/-! DEFINITION. The statements for the provers, each from the numbered rules its docstring names. -/

open Sys2Proof Sys2Proof.Machine

/-! ## Encoding and decoding -/

/-- R91, R93, R94: decoding and encoding are inverse on all words and all commands. -/
def Obligations.DecodeInvertsEncode : Prop :=
  ∀ (w : CmdWord) (i : Instr), decode w = .ok i ↔ w = encode i

/-- R94: a word is the command of the one row of the opcode map that selects it, with the fields of R91; a word that no
row selects is illegal, which the spec also says field by field, and executing it raises `IllegalCommand`. -/
def Obligations.DecodingFollowsTheOpcodeMap : Prop :=
  ∀ w : CmdWord,
    (∀ row ∈ opcodeMap, (∃ i, decode w = .ok i ∧ i.mnemonic = row.mnemonic) ↔ w &&& row.mask = row.pattern)
    ∧ (∀ i, decode w = .ok i → (∀ v, i.vid? = some v → v = vidField w) ∧ (∀ b, i.imm? = some b → b = immField w))
    ∧ (∀ row ∈ opcodeMap, ∀ row' ∈ opcodeMap, w &&& row.mask = row.pattern → w &&& row'.mask = row'.pattern → row = row')
    ∧ ((∃ e, decode w = .error e) ↔ ∀ row ∈ opcodeMap, w &&& row.mask ≠ row.pattern)
    ∧ ((∃ e, decode w = .error e) ↔
        zeroField w ≠ 0 ∨ (opField w).toNat ≥ 8 ∨ ((opField w).toNat ∉ [2, 4] ∧ immField w ≠ 0)
          ∨ ((opField w).toNat ∉ [1, 2, 3, 4, 5, 6] ∧ vidField w ≠ 0))
    ∧ ∀ e s, decode w = .error e → ∃ t, execWord w s = .next t ∧ t.flt = true ∧ (s.err = 0 → t.err = 2)

/-- R97: the spec's worked encodings, the four illegal words among them. -/
def Obligations.WorkedEncodingsDecode : Prop :=
  decode 0x00000000 = .ok .nop ∧ decode 0x00000011 = .ok (.tbuild 1) ∧ decode 0x00000112 = .ok (.tread 1 0x01)
    ∧ decode 0x0000FF92 = .ok (.tread 9 0xFF) ∧ decode 0x00000043 = .ok (.cinit 4) ∧ decode 0x00003144 = .ok (.step 4 0x31)
    ∧ decode 0x00003194 = .ok (.step 9 0x31) ∧ decode 0x00000045 = .ok (.cfinal 4) ∧ decode 0x00000096 = .ok (.compute 9)
    ∧ decode 0x000000B6 = .ok (.compute 11) ∧ decode 0x00000007 = .ok .sreset
    ∧ (∃ e, decode 0x00000008 = .error e) ∧ (∃ e, decode 0x00000010 = .error e)
    ∧ (∃ e, decode 0x00000196 = .error e) ∧ (∃ e, decode 0x00013194 = .error e)

/-! ## Faults -/

/-- R208: exactly what raising a fault records, and that it changes nothing else. -/
def Obligations.FaultEntryRecordsTheFirstFault : Prop :=
  ∀ (s : State) (f : BlockFault) (info : Word),
    (s.err = 0 → raise s f info = { s with err := f.code, einfo := info, flt := true })
    ∧ (s.err ≠ 0 → raise s f info = { s with flt := true })

/-- R203: an illegal word executes nothing and records `IllegalCommand` with the word. -/
def Obligations.IllegalCommandExecutesNothing : Prop :=
  ∀ (w : CmdWord) (s : State) (e : Illegal), decode w = .error e →
    execWord w s = .next { s with
      flt := true
      err := if s.err = 0 then 2 else s.err
      einfo := if s.err = 0 then w.setWidth 64 else s.einfo }

/-- R174: an illegal word raises `IllegalCommand`, one that decodes runs its command, and every command word, legal or not,
is one atomic transition to a next state, which a completion leaves with `FLT = 0` and a fault with `FLT = 1`. -/
def Obligations.CommandWordIsOneTransition : Prop :=
  ∀ (w : CmdWord) (s : State),
    (∀ e, decode w = .error e → execWord w s = .next (raise s .illegalCommand (w.setWidth 64)))
    ∧ (∀ i, decode w = .ok i → execWord w s = exec i s)
    ∧ ∃ t, execWord w s = .next t ∧ (t.flt = true ↔ faultCode w s ≠ 0)

/-- R202: COMPUTE of a null buffer with a nonzero length, and nothing else, records `InvalidArgument`. -/
def Obligations.InvalidArgumentIsTheNullBuffer : Prop :=
  (∀ s vid P, s.cfg.variant? vid = some P → s.baddr = 0 → s.blen ≠ 0 →
      FaultsWith (.compute vid) s 1 ((encode (.compute vid)).setWidth 64))
    ∧ (∀ s vid P, s.cfg.variant? vid = some P → s.baddr = 0 → s.blen = 0 →
        ∃ t, exec (.compute vid) s = .next t ∧ t.flt = false ∧ t.err = s.err ∧ t.einfo = s.einfo)
    ∧ ∀ w s t, execWord w s = .next t → s.err = 0 → t.err = 1 →
        ∃ vid, decode w = .ok (.compute vid) ∧ s.baddr = 0 ∧ s.blen ≠ 0

/-- R204: a command that names a variant that is not valid, or TBUILD or TREAD of a Sick-kind variant, faults
`IllegalVariant` with its word. -/
def Obligations.IllegalVariantFaults : Prop :=
  ∀ (i : Instr) (s : State) (vid : BitVec 4), i.vid? = some vid →
    (s.cfg.variant? vid = none → FaultsWith i s 3 ((encode i).setWidth 64))
    ∧ ∀ P, s.cfg.variant? vid = some P → P.kind = .sick → (i = .tbuild vid ∨ ∃ index, i = .tread vid index) →
        FaultsWith i s 3 ((encode i).setWidth 64)

/-- R205, with the bound of R76: a buffer that would pass the top of the address space faults `BufferRange`, with no
table built, and one that ends exactly at the top does not. -/
def Obligations.BufferRangeFaults : Prop :=
  (∀ s vid P, s.cfg.variant? vid = some P → (s.baddr = 0 → s.blen = 0) → s.baddr.toNat + s.blen.toNat > 2 ^ s.cfg.aw →
      FaultsWith (.compute vid) s 4 ((encode (.compute vid)).setWidth 64))
    ∧ ∀ s vid t, exec (.compute vid) s = .next t → s.err = 0 → s.baddr.toNat + s.blen.toNat ≤ 2 ^ s.cfg.aw → t.err ≠ 4

/-- R206, R77: a byte that cannot be read faults `BusError` at the smallest such address, with `RESULT` not written. -/
def Obligations.BusErrorAtTheLowestAddress : Prop :=
  ∀ s vid P j, s.cfg.variant? vid = some P → BufferAccepted s → j < s.blen.toNat → memRead s (s.baddr.toNat + j) = none →
    (∀ i < j, memRead s (s.baddr.toNat + i) ≠ none) →
    ∃ t, exec (.compute vid) s = .next t
      ∧ t = { s with
          flt := true
          err := if s.err = 0 then 5 else s.err
          einfo := if s.err = 0 then BitVec.ofNat 64 (s.baddr.toNat + j) else s.einfo
          tvalid := t.tvalid
          tent := t.tent }
      ∧ (P.kind = .table → SlotEnsured s t (s.cfg.tid P) P.toKey)
      ∧ (P.kind = .sick → t.tvalid = s.tvalid ∧ t.tent = s.tent)

/-- R207: the one fault a command word raises from a clear record, in the spec's order of conditions. -/
def Obligations.FaultPriority : Prop :=
  ∀ (w : CmdWord) (s : State), s.err = 0 → ∃ t, execWord w s = .next t ∧ t.err = faultCode w s

/-- R209: a faulting command writes no data register, records a fault where the record is clear and keeps one that is not, and touches the table store only
where it is a COMPUTE that faults with `BusError`. -/
def Obligations.FaultingCommandHasNoPartialResult : Prop :=
  ∀ (w : CmdWord) (s t : State), execWord w s = .next t → t.flt = true →
    t.crc = s.crc ∧ t.prev = s.prev ∧ t.baddr = s.baddr ∧ t.blen = s.blen ∧ t.result = s.result
    ∧ (s.err = 0 → t.err ≠ 0) ∧ (s.err ≠ 0 → t.err = s.err ∧ t.einfo = s.einfo)
    ∧ ((t.tvalid ≠ s.tvalid ∨ t.tent ≠ s.tent) →
        (∃ vid, decode w = .ok (.compute vid)) ∧ bufferUnreadable s = true ∧ (s.err = 0 → t.err = 5))

/-- R210: `ERR` and `EINFO` keep the first fault until SRESET; every later command changes `FLT` alone of the record, and
does what it would have done without the fault. -/
def Obligations.FirstFaultIsSticky : Prop :=
  ∀ (w : CmdWord) (s t : State), execWord w s = .next t → s.err ≠ 0 → decode w ≠ .ok .sreset →
    t.err = s.err ∧ t.einfo = s.einfo
    ∧ ∃ u, execWord w { s with err := 0, einfo := 0, flt := false } = .next u
        ∧ t = { u with err := s.err, einfo := s.einfo }

/-! ## The commands -/

/-- R170: NOP writes `FLT` and nothing else; its word is the all-zero word. -/
def Obligations.NopClearsFltOnly : Prop :=
  (∀ s : State, exec .nop s = .next { s with flt := false }) ∧ WordsAre (· = .nop) 0xFFFFFFFF 0x00000000

/-- R171: SRESET puts every register and every valid bit at its reset value, as the reset input does; it is the only command
that clears the fault record or a valid bit; its word is `0x00000007`. -/
def Obligations.SresetClearsTheBlock : Prop :=
  (∀ s : State, ∃ t, exec .sreset s = .next t ∧ IsResetState t ∧ hostAct .reset s = .next t)
    ∧ (∀ w s t, execWord w s = .next t → decode w ≠ .ok .sreset →
        (s.err ≠ 0 → t.err = s.err ∧ t.einfo = s.einfo) ∧ ∀ n, slotValid s n = true → slotValid t n = true)
    ∧ WordsAre (· = .sreset) 0xFFFFFFFF 0x00000007

/-- What SRESET and the reset input leave alone: the configuration (R231), the platform's memory and the host's side. That
the last two survive is the model's reading of R20 (log entry 19). -/
def Obligations.SresetFrame : Prop :=
  ∀ s t : State, exec .sreset s = .next t →
    t.cfg = s.cfg ∧ t.mem = s.mem ∧ (∀ a, memRead t a = memRead s a) ∧ t.pending = s.pending ∧ t.rdata = s.rdata

/-- R115: TBUILD ensures the slot of the variant's key and changes nothing else but `FLT`. -/
def Obligations.TbuildEnsuresTheTable : Prop :=
  (∀ (s : State) (vid : BitVec 4),
      (s.cfg.tableVariant? vid = none → FaultsWith (.tbuild vid) s 3 ((encode (.tbuild vid)).setWidth 64))
      ∧ ∀ P, s.cfg.tableVariant? vid = some P → ∃ t, exec (.tbuild vid) s = .next t
          ∧ SlotEnsured s t (s.cfg.tid P) P.toKey
          ∧ t = { s with flt := false, tvalid := t.tvalid, tent := t.tent }
          ∧ (slotValid s (s.cfg.tid P) = true → t = { s with flt := false }))
    ∧ WordsAre (fun i => ∃ vid, i = .tbuild vid) 0xFFFFFF0F 0x00000001

/-- R116: TREAD puts an entry of the variant's table in `RESULT`, building the table first where it is not valid. -/
def Obligations.TreadReadsTheEntry : Prop :=
  (∀ (s : State) (vid : BitVec 4) (index : Byte),
      (s.cfg.tableVariant? vid = none → FaultsWith (.tread vid index) s 3 ((encode (.tread vid index)).setWidth 64))
      ∧ ∀ P, s.cfg.tableVariant? vid = some P → ∃ t, exec (.tread vid index) s = .next t
          ∧ SlotEnsured s t (s.cfg.tid P) P.toKey
          ∧ t = { s with flt := false, result := ((entry t (s.cfg.tid P) index).setWidth P.W).setWidth 64, tvalid := t.tvalid,
                         tent := t.tent }
          ∧ (s.Inv → t.result = (buildEntry P.toKey index).setWidth 64 ∧ (index = 0 → t.result = 0)))
    ∧ WordsAre (fun i => ∃ vid index, i = .tread vid index) 0xFFFF000F 0x00000002

/-- R151: CINIT loads the variant's initial value, and clears `PREV` for the Sick kind only. -/
def Obligations.CinitStartsAStream : Prop :=
  (∀ (s : State) (vid : BitVec 4),
      (s.cfg.variant? vid = none → FaultsWith (.cinit vid) s 3 ((encode (.cinit vid)).setWidth 64))
      ∧ ∀ P, s.cfg.variant? vid = some P →
          exec (.cinit vid) s = .next { s with
            crc := P.init.setWidth 64
            prev := if P.kind = .sick then 0 else s.prev
            flt := false })
    ∧ WordsAre (fun i => ∃ vid, i = .cinit vid) 0xFFFFFF0F 0x00000003

/-- R152: STEP folds one byte into `CRC`, through the variant's table or, for the Sick kind, through `sick_step`. -/
def Obligations.StepAdvancesTheRegister : Prop :=
  (∀ (s : State) (vid : BitVec 4) (c : Byte),
      (s.cfg.variant? vid = none → FaultsWith (.step vid c) s 3 ((encode (.step vid c)).setWidth 64))
      ∧ (∀ P, s.cfg.variant? vid = some P → P.kind = .table → ∃ t, exec (.step vid c) s = .next t
          ∧ SlotEnsured s t (s.cfg.tid P) P.toKey
          ∧ t = { s with
              flt := false
              crc := (foldByte P.toKey (fun b => (entry t (s.cfg.tid P) b).setWidth P.W) (s.crc.setWidth P.W) c).setWidth 64
              tvalid := t.tvalid
              tent := t.tent }
          ∧ (s.Inv → t.crc = (stepByte P.toKey (s.crc.setWidth P.W) c).setWidth 64))
      ∧ ∀ P, s.cfg.variant? vid = some P → P.kind = .sick →
          exec (.step vid c) s = .next { s with
            crc := (Config.sickStep (s.crc.setWidth 16) c s.prev).setWidth 64
            prev := c
            flt := false })
    ∧ WordsAre (fun i => ∃ vid c, i = .step vid c) 0xFFFF000F 0x00000004

/-- R153: CFINAL puts the finalised register in `RESULT` and leaves `CRC` as it was. -/
def Obligations.CfinalFinalisesTheStream : Prop :=
  (∀ (s : State) (vid : BitVec 4),
      (s.cfg.variant? vid = none → FaultsWith (.cfinal vid) s 3 ((encode (.cfinal vid)).setWidth 64))
      ∧ ∀ P, s.cfg.variant? vid = some P →
          exec (.cfinal vid) s = .next { s with result := (finalize P (s.crc.setWidth P.W)).setWidth 64, flt := false })
    ∧ WordsAre (fun i => ∃ vid, i = .cfinal vid) 0xFFFFFF0F 0x00000005

/-- R133, R134, R74: over a readable buffer, COMPUTE of a table-kind variant leaves `compute(P, B)` in `RESULT`. The
premise `s.Inv` rules out states whose valid slots do not hold their table. -/
def Obligations.ComputeFoldsTheBuffer : Prop :=
  ∀ s vid P B, s.Inv → s.cfg.variant? vid = some P → P.kind = .table → BufferAccepted s → BufferHolds s B →
    ∃ t, exec (.compute vid) s = .next t
      ∧ SlotEnsured s t (s.cfg.tid P) P.toKey
      ∧ t = { s with result := (compute P B).setWidth 64, flt := false, tvalid := t.tvalid, tent := t.tent }

/-- R138: COMPUTE of the Sick kind folds `sick_step` from previous byte 0, uses no table and does not touch `PREV`. -/
def Obligations.ComputeSickFoldsTheBuffer : Prop :=
  (∀ s vid P B, s.cfg.variant? vid = some P → P.kind = .sick → BufferAccepted s → BufferHolds s B →
      exec (.compute vid) s = .next { s with result := (computeSick P B).setWidth 64, flt := false })
    ∧ ∀ P B, computeSick P B =
        finalize P ((B.foldl (fun rp c => (Config.sickStep rp.1 c rp.2, c)) (P.init.setWidth 16, (0 : Byte))).1.setWidth P.W)

/-- R93, R134: the words of COMPUTE. -/
def Obligations.ComputeWords : Prop :=
  WordsAre (fun i => ∃ vid, i = .compute vid) 0xFFFFFF0F 0x00000006

/-- R135: the empty buffer gives `init`, finalised, whatever the memory holds. -/
def Obligations.EmptyBufferGivesInit : Prop :=
  ∀ s vid P, s.Inv → s.cfg.variant? vid = some P → s.blen = 0 →
    ∃ t, exec (.compute vid) s = .next t ∧ t.flt = false
      ∧ t.result = ((if P.reflectOut ≠ P.reflectIn then P.init.reverse else P.init) ^^^ P.xorout).setWidth 64
      ∧ (P.kind = .table → slotValid t (s.cfg.tid P) = true)

/-- R33: COMPUTE reads and writes neither `CRC` nor `PREV`. -/
def Obligations.ComputeLeavesTheStream : Prop :=
  ∀ (s t : State) (vid : BitVec 4) (x : Word) (p : Byte), exec (.compute vid) s = .next t →
    t.crc = s.crc ∧ t.prev = s.prev
    ∧ exec (.compute vid) { s with crc := x, prev := p } = .next { t with crc := x, prev := p }

/-- R136: `RESULT` after COMPUTE is a function of the Parameter Set, the length and the bytes read, and of nothing else. -/
def Obligations.ComputeIsDeterministic : Prop :=
  ∀ s s' vid vid' P B, s.Inv → s'.Inv → s.cfg.variant? vid = some P → s'.cfg.variant? vid' = some P →
    BufferAccepted s → BufferAccepted s' → BufferHolds s B → BufferHolds s' B →
    ∃ t t', exec (.compute vid) s = .next t ∧ exec (.compute vid') s' = .next t' ∧ t.result = t'.result ∧ t.flt = false

/-- R78: no command writes the buffer space. -/
def Obligations.MemoryIsNeverWritten : Prop :=
  ∀ (w : CmdWord) (s t : State), execWord w s = .next t → t.mem = s.mem ∧ ∀ a, memRead t a = memRead s a

/-- `10_state.md` section 2: which commands may change which register; every other register, the configuration, memory and
the host's side stay as they were. This is the frame of every command. -/
def Obligations.RegisterWriters : Prop :=
  ∀ (i : Instr) (s t : State), exec i s = .next t → i ≠ .sreset →
    (t.crc ≠ s.crc → (∃ v, i = .cinit v) ∨ ∃ v c, i = .step v c)
    ∧ (t.prev ≠ s.prev → ((∃ v, i = .cinit v) ∨ ∃ v c, i = .step v c)
        ∧ ∃ v P, i.vid? = some v ∧ s.cfg.variant? v = some P ∧ P.kind = .sick)
    ∧ (t.result ≠ s.result → (∃ v b, i = .tread v b) ∨ (∃ v, i = .cfinal v) ∨ ∃ v, i = .compute v)
    ∧ (t.err ≠ s.err ∨ t.einfo ≠ s.einfo → s.err = 0 ∧ t.flt = true)
    ∧ (t.tvalid ≠ s.tvalid ∨ t.tent ≠ s.tent →
        (∃ v, i = .tbuild v) ∨ (∃ v b, i = .tread v b) ∨ (∃ v c, i = .step v c) ∨ ∃ v, i = .compute v)
    ∧ t.baddr = s.baddr ∧ t.blen = s.blen ∧ t.mem = s.mem ∧ (∀ a, memRead t a = memRead s a)
    ∧ t.pending = s.pending ∧ t.rdata = s.rdata ∧ t.cfg = s.cfg

/-- R22: the bits of `CRC` from `W` up are ignored on the way in and zero on the way out. -/
def Obligations.UpperCrcBitsAreIgnored : Prop :=
  ∀ (s : State) (vid : BitVec 4) (P : ParamSet) (x : Word) (c : Byte), s.Inv → s.cfg.variant? vid = some P →
    x.setWidth P.W = s.crc.setWidth P.W →
    exec (.step vid c) { s with crc := x } = exec (.step vid c) s
    ∧ (∃ t u, exec (.cfinal vid) { s with crc := x } = .next t ∧ exec (.cfinal vid) s = .next u ∧ t.result = u.result
        ∧ t.crc = x)
    ∧ ∀ i ∈ [Instr.step vid c, Instr.cinit vid], ∃ t, exec i s = .next t ∧ t.crc.toNat < 2 ^ P.W

/-! ## The pure functions -/

/-- R110: `build_entry` for the non-reflected convention is the eighth register of the spec's sequence. -/
def Obligations.BuildEntryNonReflected : Prop :=
  ∀ (k : Key) (b : Byte) (r : Nat → BitVec k.W), k.reflectIn = false → r 0 = b.setWidth k.W <<< (k.W - 8) →
    (∀ n, r (n + 1) = if (r n).getLsbD (k.W - 1) then (r n <<< 1) ^^^ k.polynomial else r n <<< 1) → buildEntry k b = r 8

/-- R111: `build_entry` for the reflected convention is the eighth register of the spec's sequence. -/
def Obligations.BuildEntryReflected : Prop :=
  ∀ (k : Key) (b : Byte) (r : Nat → BitVec k.W), k.reflectIn = true → r 0 = b.setWidth k.W →
    (∀ n, r (n + 1) = if (r n).getLsbD 0 then (r n >>> 1) ^^^ k.polynomial else r n >>> 1) → buildEntry k b = r 8

/-- R113: entry 0 is 0, the polynomial's own entry, and linearity over XOR, for every key. The spec derives them. -/
def Obligations.TableLaws : Prop :=
  ∀ k : Key, tableAt k 0 = 0 ∧ (k.reflectIn = false → tableAt k 1 = k.polynomial) ∧ (k.reflectIn = true → tableAt k 0x80 = k.polynomial)
    ∧ ∀ a b : Byte, tableAt k (a ^^^ b) = tableAt k a ^^^ tableAt k b

/-- R139: the table fold of a byte is eight bit-level steps. The spec derives it. -/
def Obligations.TableFoldIsEightBitSteps : Prop :=
  ∀ (k : Key) (reg : BitVec k.W) (c : Byte),
    stepByte k reg c =
      (fun r : BitVec k.W =>
        if k.reflectIn then (if r.getLsbD 0 then (r >>> 1) ^^^ k.polynomial else r >>> 1)
        else (if r.getLsbD (k.W - 1) then (r <<< 1) ^^^ k.polynomial else r <<< 1))^[8]
        (reg ^^^ if k.reflectIn then c.setWidth k.W else c.setWidth k.W <<< (k.W - 8))

/-- R130, R131: `fold_byte` for both conventions and any table; at width 8 the shifted term is 0. -/
def Obligations.FoldByteOfBothConventions : Prop :=
  ∀ (k : Key) (T : Byte → BitVec k.W) (reg : BitVec k.W) (c : Byte),
    (k.reflectIn = false → foldByte k T reg c = T (reg.extractLsb' (k.W - 8) 8 ^^^ c) ^^^ (reg <<< 8))
    ∧ (k.reflectIn = true → foldByte k T reg c = T (reg.setWidth 8 ^^^ c) ^^^ (reg >>> 8))
    ∧ (k.width = .w8 → foldByte k T reg c = T (reg.setWidth 8 ^^^ c))

/-- R132: `finalize`, bit by bit. -/
def Obligations.FinalizeBitByBit : Prop :=
  ∀ (P : ParamSet) (reg : BitVec P.W) (i : Nat), i < P.W →
    (finalize P reg).getLsbD i =
      ((if P.reflectOut ≠ P.reflectIn then reg.getLsbD (P.W - 1 - i) else reg.getLsbD i) ^^ P.xorout.getLsbD i)

/-- R55: the six equalities the source attests hold of the default preset ROM and of the ROM of every configuration of this
block, and COMPUTE of an enabled one of the six variants over the nine bytes gives its value. R55 states the equalities; that
every ROM holds the six variants, of kind `table` and at the numbers R98 gives for the default ROM, is the model's reading (log
entry 21), and the second and third clauses rest on it. -/
def Obligations.AttestedCheckValues : Prop :=
  AttestedChecks defaultPresets
    ∧ (∀ c : Config, c.wf = true → AttestedChecks c.presets)
    ∧ ∀ s vid x, s.Inv → (vid.toNat, x) ∈ attestedValues → vid.toNat ∈ s.cfg.enabled → BufferAccepted s →
        BufferHolds s checkBuffer → ∃ t, exec (.compute vid) s = .next t ∧ t.flt = false ∧ t.result.toNat = x

/-- R52, R56: the slots of the default ROM, seven keys, shared as the spec lists. -/
def Obligations.DefaultTableSlots : Prop :=
  Config.default.keys =
      [presetCrc8.toKey, presetCrc16.toKey, presetXmodem.toKey, presetDnp.toKey, presetKermit.toKey, presetCrc32.toKey,
        presetCrc64We.toKey]
    ∧ (defaultPresets.filter (·.kind = .table)).map Config.default.tid = [0, 1, 1, 2, 2, 2, 3, 4, 5, 6, 6]

/-- R190 to R192: the NMEA checksum, outside the block, does not depend on the order of the bytes. -/
def Obligations.NmeaIsOrderIndependent : Prop :=
  ∀ B B' : List Byte, B.Perm B' → checksumNmea B = checksumNmea B'

/-! ## The table store -/

/-- R114: `ensure_table` builds a slot that is not valid and leaves a valid one alone; of the commands, only TBUILD, TREAD,
STEP and COMPUTE of table-kind variants call it. -/
def Obligations.EnsureTableBuildsOnce : Prop :=
  (∀ s n k, n < 16 → s.cfg.keys[n]? = some k →
      SlotEnsured s (ensureTable s n) n k
      ∧ ensureTable s n = { s with tvalid := (ensureTable s n).tvalid, tent := (ensureTable s n).tent }
      ∧ (slotValid s n = true → ensureTable s n = s))
    ∧ ∀ i s t, exec i s = .next t → i ≠ .sreset → (t.tvalid ≠ s.tvalid ∨ t.tent ≠ s.tent) →
        ((∃ v, i = .tbuild v) ∨ (∃ v b, i = .tread v b) ∨ (∃ v c, i = .step v c) ∨ ∃ v, i = .compute v)
        ∧ ∃ v P, i.vid? = some v ∧ s.cfg.variant? v = some P ∧ P.kind = .table

/-- R30, R83: a slot once valid is written by no command but SRESET. -/
def Obligations.ValidSlotIsNeverRebuilt : Prop :=
  ∀ (w : CmdWord) (s t : State) (n : Nat), execWord w s = .next t → decode w ≠ .ok .sreset → slotValid s n = true →
    slotValid t n = true ∧ ∀ i, entry t n i = entry s n i

/-- R32, R136: the table store affects no result: from two states that differ in it at most, both right in the sense of
R31, a command leads to two states that differ in it at most. -/
def Obligations.TableStoreAffectsNoResult : Prop :=
  ∀ (w : CmdWord) (s s' : State), s.Inv → s'.Inv → SameButTableStore s s' →
    ∃ t t', execWord w s = .next t ∧ execWord w s' = .next t' ∧ SameButTableStore t t'

/-- R31, U10: what the entries of a slot hold that is not valid is never observed: no step, a host read among them, tells
two right states apart that differ in entries alone. No reset value of an entry (log entry 7) can matter. -/
def Obligations.InvalidEntriesAreUnobservable : Prop :=
  ∀ s s' : State, s.Inv → s'.Inv → SameButEntries s s' →
    (∀ t, step s = .next t → ∃ t', step s' = .next t' ∧ SameButEntries t t')
    ∧ ∀ f, step s = .fault f → step s' = .fault f

/-! ## Streams -/

/-- R154: CINIT, one STEP per byte and CFINAL leave in `RESULT` what COMPUTE over the same bytes leaves, for every valid
variant of either kind. -/
def Obligations.IncrementalEquivalence : Prop :=
  ∀ s vid P B, s.Inv → s.cfg.variant? vid = some P → BufferAccepted s → BufferHolds s B →
    ∃ t u, execAll (streamCommands vid B) s = .next t ∧ exec (.compute vid) s = .next u
      ∧ t.result = u.result ∧ t.result = wholeResult P B ∧ t.flt = false ∧ u.flt = false

/-- R155: a stream goes on undisturbed after a command that does not write `CRC` or `PREV`. -/
def Obligations.StreamIsUndisturbed : Prop :=
  ∀ (s t u : State) (i : Instr) (vid : BitVec 4) (c : Byte), s.Inv → exec i s = .next t →
    ((∃ v, i = .compute v) ∨ (∃ v b, i = .tread v b) ∨ (∃ v, i = .tbuild v) ∨ (∃ v, i = .cfinal v) ∨ i = .nop) →
    exec (.step vid c) s = .next u →
    t.crc = s.crc ∧ t.prev = s.prev ∧ ∃ u', exec (.step vid c) t = .next u' ∧ u'.crc = u.crc ∧ u'.prev = u.prev ∧ u'.flt = u.flt

/-- R158: STEP depends on the Parameter Set through the key alone. The spec derives it. -/
def Obligations.StepDependsOnTheKeyAlone : Prop :=
  ∀ (s : State) (v v' : BitVec 4) (P P' : ParamSet) (c : Byte), s.cfg.tableVariant? v = some P → s.cfg.tableVariant? v' = some P' →
    P.toKey = P'.toKey → exec (.step v c) s = exec (.step v' c) s

/-! ## The host port -/

/-- R172: what each register reads as, `STATUS` as the sum of its parts, and that a read changes nothing of the block. -/
def Obligations.HostReadValues : Prop :=
  ∀ s : State, s.Inv →
    hostRead s .cmd = 0 ∧ hostRead s .crc = s.crc ∧ hostRead s .prev = s.prev.setWidth 64 ∧ hostRead s .baddr = s.baddr
    ∧ hostRead s .blen = s.blen ∧ hostRead s .result = s.result ∧ hostRead s .einfo = s.einfo
    ∧ (hostRead s .status).toNat = s.err.toNat + 16 * s.flt.toNat
        + ((List.range s.cfg.ntab).map fun t => if slotValid s t then 2 ^ (16 + t) else 0).sum
    ∧ ∀ r, hostAct (.read r) s = .next { s with rdata := hostRead s r }

/-- R28: the fields of `STATUS` as it is read, the reserved ones 0, and no host write to it does anything. -/
def Obligations.StatusFields : Prop :=
  ∀ s : State,
    (hostRead s .status).extractLsb' 0 4 = s.err ∧ (hostRead s .status).getLsbD 4 = s.flt
    ∧ (hostRead s .status).extractLsb' 5 11 = 0 ∧ (hostRead s .status).extractLsb' 32 32 = 0
    ∧ (∀ t < 16, (hostRead s .status).getLsbD (16 + t) = slotValid s t)
    ∧ (s.Inv → ∀ t, s.cfg.ntab ≤ t → t < 16 → (hostRead s .status).getLsbD (16 + t) = false)
    ∧ ∀ v, hostWrite .status v s = .next s

/-- R173: what a host write does to each register, and that a write to a read-only one does nothing. -/
def Obligations.HostWriteEffects : Prop :=
  ∀ (s : State) (v : Word),
    hostWrite .cmd v s = execWord (v.setWidth 32) s
    ∧ hostWrite .crc v s = .next { s with crc := v }
    ∧ hostWrite .prev v s = .next { s with prev := v.setWidth 8 }
    ∧ hostWrite .baddr v s = .next { s with baddr := (v.setWidth s.cfg.aw).setWidth 64 }
    ∧ hostWrite .blen v s = .next { s with blen := v }
    ∧ hostWrite .result v s = .next s ∧ hostWrite .status v s = .next s ∧ hostWrite .einfo v s = .next s

/-- R79: what the platform stores is what the buffer port answers, and no other address changes. That the store is an action
of the model, and stops at an address that does not exist, is the model's choice (log entry 11). -/
def Obligations.PlatformWriteIsRead : Prop :=
  ∀ (s : State) (a : Word) (b : Byte), s.Inv →
    (a.toNat < 2 ^ s.cfg.aw → ∃ t, hostAct (.memWrite a b) s = .next t ∧ t = { s with mem := t.mem }
      ∧ ∀ x, memRead t x = if x = a.toNat ∧ x ∉ s.cfg.memErr then some b else memRead s x)
    ∧ (2 ^ s.cfg.aw ≤ a.toNat → hostAct (.memWrite a b) s = .fault .noSuchAddress)

/-- R99: the source's whole-buffer operation, run as host actions from any state with the invariant, returns the checksum
of the bytes. That a step takes the oldest pending action, and `rdata`, are the model's (log entries 1 and 2). -/
def Obligations.WholeBufferOperation : Prop :=
  ∀ s vid P buf len B rest, s.Inv → s.pending = wholeBufferOp vid buf len ++ rest → s.cfg.variant? vid = some P →
    buf.toNat < 2 ^ s.cfg.aw → (buf = 0 → len = 0) → buf.toNat + len.toNat ≤ 2 ^ s.cfg.aw → B.length = len.toNat →
    (∀ i (h : i < B.length), memRead s (buf.toNat + i) = some B[i]) →
    ∃ t : State, Host.Core.run Sys2Proof.core 5 s = .next t ∧ t.rdata = wholeResult P B ∧ t.pending = rest ∧ t.flt = false
      ∧ t.crc = s.crc ∧ t.prev = s.prev

/-- R99: the source's incremental operations, run as host actions, return the stepped register. -/
def Obligations.IncrementalOperations : Prop :=
  ∀ s vid P crc c prev rest, s.Inv → s.cfg.variant? vid = some P →
    (P.kind = .table → s.pending = updateOp vid crc c ++ rest →
      ∃ t : State, Host.Core.run Sys2Proof.core 3 s = .next t ∧ t.rdata = (stepByte P.toKey (crc.setWidth P.W) c).setWidth 64
        ∧ t.pending = rest)
    ∧ (P.kind = .sick → s.pending = updateSickOp vid crc c prev ++ rest →
      ∃ t : State, Host.Core.run Sys2Proof.core 4 s = .next t
        ∧ t.rdata = (Config.sickStep (crc.setWidth 16) c prev).setWidth 64 ∧ t.prev = c ∧ t.pending = rest)

/-! ## The machine -/

/-- A step runs the decoded command: where the next host action writes a word to `CMD` that decodes, the step is `exec` of
the command on the state without that action; a placed word is that action; with no action the block is idle. How actions
are held is the model's (log entry 1). -/
def Obligations.StepRunsTheDecodedCommand : Prop :=
  (∀ s v rest i, s.pending = .write .cmd v :: rest → decode (v.setWidth 32) = .ok i → step s = exec i { s with pending := rest })
    ∧ (∀ s w i, decode w = .ok i → step (s.withFetchWord 32 w.toNat) = exec i s)
    ∧ ∀ s, s.pending = [] → step s = .next s

/-- R79, R82: host actions take effect one at a time in the order they are issued. The list of them is the model's (log
entry 1). -/
def Obligations.ActionsTakeEffectInOrder : Prop :=
  ∀ s t act rest, s.pending = act :: rest → step s = .next t →
    t.pending = rest ∧ hostAct act { s with pending := rest } = .next t

/-- R35, R231: no step changes the configuration. -/
def Obligations.ConfigurationNeverChanges : Prop :=
  ∀ s t : State, step s = .next t → t.cfg = s.cfg

/-- R36: the values the spec gives for the state after a reset, whether it is the state a run starts from, the reset input's
or SRESET's. -/
def Obligations.ResetValues : Prop :=
  IsResetState State.reset
    ∧ ∀ s t : State, hostAct .reset s = .next t ∨ exec .sreset s = .next t → IsResetState t

/-- R230: the reset input puts the block into the reset state, as SRESET does, and `STATUS` then reads as 0. -/
def Obligations.ResetInputIsSreset : Prop :=
  ∀ s : State, ∃ t, hostAct .reset s = .next t ∧ exec .sreset s = .next t ∧ IsResetState t ∧ hostRead t .status = 0

/-- R24, R28, R29, R31, R201: the invariant holds after reset. -/
def Obligations.InvariantAtReset : Prop := State.reset.Inv

/-- R24, R28, R29, R31, R201: every step keeps the invariant, the table store's among it. -/
def Obligations.EveryStepKeepsTheInvariant : Prop :=
  ∀ s t : State, s.Inv → step s = .next t → t.Inv

/-- R239, R210: a run with no reset or SRESET after a fault went wrong exactly when `ERR` is not 0 in its final state; from a
state with a clear record a run, whatever it contains, went wrong exactly when some command of it faulted. The machine performs
a run as that many steps. The verdict on a run that erases a fault is the model's reading (log entry 22), and how actions are
held is the model's (log entry 1). -/
def Obligations.RunsThatWentWrong : Prop :=
  ∀ (s t : State) (acts : List HostAction), runActions acts s = .next t →
    (faultErased s acts = false → (WentWrong s acts ↔ t.err ≠ 0))
    ∧ (s.err = 0 → (WentWrong s acts ↔ ∃ before act after u, acts = before ++ act :: after ∧ runActions before s = .next u
        ∧ actionFaults u act = true))
    ∧ Host.Core.run Sys2Proof.core acts.length { s with pending := acts ++ s.pending } = .next t
end

