-- ==== Sys2Proof/Laws/Memory.lean ====
section
/-! SUPPORT. Memory: read after write, the canonical form is kept, and what reading a buffer answers. -/

namespace Sys2Proof.Machine

theorem memGet_of_lt_all {m : List Host.Cell} {a : Nat} (h : ∀ c ∈ m, a < c.1) : memGet m a = unlistedByte := by
  induction m with
  | nil => rfl
  | cons c rest ih =>
    have hc := h c (by simp)
    have hne : c.1 ≠ a := by omega
    simp only [memGet, if_neg hne]
    exact ih fun d hd => h d (by simp [hd])

theorem memGet_memCons {rest : List Host.Cell} {a : Nat} {b : Byte} (h : ∀ c ∈ rest, a < c.1) (x : Nat) :
    memGet (memCons a b rest) x = if a = x then b else memGet rest x := by
  unfold memCons
  by_cases hb : b = unlistedByte
  · by_cases hx : a = x
    · subst hx
      simp [hb, memGet_of_lt_all h]
    · simp [hb, hx]
  · simp [hb, memGet]

/-- Read after write: the written address gives the byte written, every other address what it gave before. -/
theorem memGet_memSet {m : List Host.Cell} (hm : Memory.wf m) (a : Nat) (b : Byte) (x : Nat) :
    memGet (memSet m a b) x = if a = x then b else memGet m x := by
  induction m with
  | nil => exact memGet_memCons (by simp) x
  | cons c rest ih =>
    obtain ⟨k, v⟩ := c
    have hrest : Memory.wf rest := ⟨hm.1.of_cons, fun d hd => hm.2 d (by simp [hd])⟩
    have hk : ∀ d ∈ rest, k < d.1 := by
      intro d hd
      exact (List.pairwise_cons.mp hm.1).1 d hd
    simp only [memSet]
    split
    · next h =>
      refine memGet_memCons ?_ x
      intro d hd
      rcases List.mem_cons.mp hd with rfl | hd
      · exact h
      · exact h.trans (hk d hd)
    · split
      · next _ h =>
        subst h
        rw [memGet_memCons hk x]
        by_cases hx : a = x <;> simp [memGet, hx]
      · next h1 h2 =>
        simp only [memGet, ih hrest]
        by_cases hkx : k = x
        · subst hkx
          simp [h2]
        · simp [hkx]

theorem memCons_mem {rest : List Host.Cell} {a : Nat} {b : Byte} {c : Host.Cell} (h : c ∈ memCons a b rest) : c.1 = a ∨ c ∈ rest := by
  unfold memCons at h
  split at h
  · exact .inr h
  · rcases List.mem_cons.mp h with rfl | h
    · exact .inl rfl
    · exact .inr h

/-- A write lists no address but the written one and those listed before. -/
theorem memSet_mem {m : List Host.Cell} {a : Nat} {b : Byte} {c : Host.Cell} (h : c ∈ memSet m a b) : c.1 = a ∨ c ∈ m := by
  induction m with
  | nil => exact memCons_mem h
  | cons d rest ih =>
    obtain ⟨k, v⟩ := d
    simp only [memSet] at h
    split at h
    · exact memCons_mem h
    · split at h
      · exact (memCons_mem h).imp_right fun h => by simp [h]
      · rcases List.mem_cons.mp h with rfl | h
        · simp
        · exact (ih h).imp_right fun h => by simp [h]

theorem memCons_wf {rest : List Host.Cell} {a : Nat} {b : Byte} (hr : Memory.wf rest) (h : ∀ c ∈ rest, a < c.1) : Memory.wf (memCons a b rest) := by
  unfold memCons
  split
  · exact hr
  · next hb =>
    refine ⟨List.pairwise_cons.mpr ⟨h, hr.1⟩, ?_⟩
    intro c hc
    rcases List.mem_cons.mp hc with rfl | hc
    · exact hb
    · exact hr.2 c hc

/-- A write keeps the canonical form. -/
theorem memSet_wf {m : List Host.Cell} (hm : Memory.wf m) (a : Nat) (b : Byte) : Memory.wf (memSet m a b) := by
  induction m with
  | nil => exact memCons_wf hm (by simp)
  | cons c rest ih =>
    obtain ⟨k, v⟩ := c
    have hrest : Memory.wf rest := ⟨hm.1.of_cons, fun d hd => hm.2 d (by simp [hd])⟩
    have hk : ∀ d ∈ rest, k < d.1 := fun d hd => (List.pairwise_cons.mp hm.1).1 d hd
    simp only [memSet]
    split
    · next h =>
      refine memCons_wf hm ?_
      intro d hd
      rcases List.mem_cons.mp hd with rfl | hd
      · exact h
      · exact h.trans (hk d hd)
    · split
      · next _ h =>
        subst h
        exact memCons_wf hrest hk
      · next h1 h2 =>
        have hs := ih hrest
        refine ⟨List.pairwise_cons.mpr ⟨?_, hs.1⟩, ?_⟩
        · intro d hd
          rcases memSet_mem hd with h | h
          · simp only [h]
            omega
          · exact hk d h
        · intro d hd
          rcases List.mem_cons.mp hd with rfl | hd
          · exact hm.2 _ (by simp)
          · exact hs.2 d hd

/-- Two states whose port answers alike read alike. -/
theorem readBuffer_congr {s t : State} (h : ∀ a, memRead s a = memRead t a) (a n : Nat) : readBuffer s a n = readBuffer t a n := by
  induction n generalizing a with
  | zero => rfl
  | succ n ih => simp only [readBuffer, h, ih]

/-- A buffer is read exactly where every byte of it is there, and then it is those bytes (R74). -/
theorem readBuffer_ok_iff {s : State} {a n : Nat} {B : List Byte} :
    readBuffer s a n = .ok B ↔ B.length = n ∧ ∀ i (h : i < B.length), memRead s (a + i) = some B[i] := by
  induction n generalizing a B with
  | zero =>
    constructor
    · intro h
      cases h
      simp
    · rintro ⟨h, -⟩
      rw [List.eq_nil_of_length_eq_zero h]
      rfl
  | succ n ih =>
    constructor
    · intro h
      simp only [readBuffer] at h
      split at h
      · cases h
      · next b hb =>
        split at h
        · cases h
        · next bs hbs =>
          cases h
          obtain ⟨hl, hi⟩ := ih.mp hbs
          refine ⟨by simp [hl], ?_⟩
          intro i hlt
          cases i with
          | zero => simpa using hb
          | succ i =>
            have := hi i (by simpa using hlt)
            simpa [Nat.add_assoc, Nat.add_comm 1 i] using this
    · rintro ⟨hl, hi⟩
      cases B with
      | nil => simp at hl
      | cons b bs =>
        have h0 : memRead s a = some b := hi 0 (Nat.succ_pos _)
        have hr : readBuffer s (a + 1) n = .ok bs := by
          refine ih.mpr ⟨by simpa using hl, ?_⟩
          intro i hlt
          have := hi (i + 1) (by simpa using hlt)
          simpa [Nat.add_assoc, Nat.add_comm 1 i] using this
        simp only [readBuffer, h0, hr]

/-- A read fails at the smallest failing index and nowhere else (R77). -/
theorem readBuffer_error_iff {s : State} {a n e : Nat} :
    readBuffer s a n = .error e ↔ ∃ j < n, e = a + j ∧ memRead s (a + j) = none ∧ ∀ i < j, memRead s (a + i) ≠ none := by
  induction n generalizing a with
  | zero =>
    constructor
    · intro h
      cases h
    · rintro ⟨j, hj, -⟩
      omega
  | succ n ih =>
    simp only [readBuffer]
    split
    · next hb =>
      constructor
      · intro h
        cases h
        exact ⟨0, by omega, by simp, by simpa using hb, by omega⟩
      · rintro ⟨j, hj, rfl, hn, hi⟩
        cases j with
        | zero => rfl
        | succ j => exact absurd (by simpa using hb) (hi 0 (by omega))
    · next b hb =>
      have key : readBuffer s (a + 1) n = .error e ↔
          ∃ j < n + 1, e = a + j ∧ memRead s (a + j) = none ∧ ∀ i < j, memRead s (a + i) ≠ none := by
        rw [ih]
        constructor
        · rintro ⟨j, hj, rfl, hn, hi⟩
          refine ⟨j + 1, by omega, by omega, by rw [← hn]; congr 1; omega, ?_⟩
          intro i hij
          cases i with
          | zero => simp [hb]
          | succ i =>
            have := hi i (by omega)
            rwa [show a + (i + 1) = a + 1 + i by omega]
        · rintro ⟨j, hj, rfl, hn, hi⟩
          cases j with
          | zero => simp [hb] at hn
          | succ j =>
            refine ⟨j, by omega, by omega, by rw [← hn]; congr 1; omega, ?_⟩
            intro i hij
            have := hi (i + 1) (by omega)
            rwa [show a + 1 + i = a + (i + 1) by omega]
      rw [← key]
      split
      · next e' he' => simp [he']
      · next bs hbs => simp [hbs]

/-- The platform's write keeps the canonical form and stays in the buffer space. -/
theorem platformWrite_cases {a : Word} {b : Byte} {s t : State} (h : platformWrite a b s = .next t) :
    a.toNat < 2 ^ s.cfg.aw ∧ t = { s with mem := memSet s.mem a.toNat b } := by
  unfold platformWrite at h
  split at h
  · next ha =>
    cases h
    exact ⟨ha, rfl⟩
  · cases h

end Sys2Proof.Machine
end

