-- ==== Sys2Proof/Laws/Presets.lean ====
section
/-! SUPPORT. Keys and table slots (R52): every table-kind variant a command can name has one of the 16 slots, and the slot is its key's. -/

namespace Sys2Proof

theorem addKey_cases (ks : List Key) (P : ParamSet) :
    (P.kind = .table ∧ P.toKey ∉ ks ∧ addKey ks P = ks ++ [P.toKey]) ∨
      ((P.kind = .sick ∨ P.toKey ∈ ks) ∧ addKey ks P = ks) := by
  unfold addKey
  split
  · next h => exact .inl ⟨h.1, h.2, rfl⟩
  · next h =>
    refine .inr ⟨?_, rfl⟩
    cases hk : P.kind with
    | sick => exact .inl rfl
    | table => exact .inr (by simpa [hk] using h)

theorem addKey_length_le (ks : List Key) (P : ParamSet) : (addKey ks P).length ≤ ks.length + 1 := by
  rcases addKey_cases ks P with ⟨-, -, h⟩ | ⟨-, h⟩ <;> simp [h]

/-- A later variant takes no slot number away from an earlier key. -/
theorem isPrefix_foldl_addKey (ks : List Key) (Ps : List ParamSet) : ks <+: Ps.foldl addKey ks := by
  induction Ps generalizing ks with
  | nil => exact List.prefix_rfl
  | cons P Ps ih =>
    refine List.IsPrefix.trans ?_ (ih (addKey ks P))
    rcases addKey_cases ks P with ⟨-, -, h⟩ | ⟨-, h⟩
    · rw [h]
      exact List.prefix_append ks [P.toKey]
    · rw [h]

theorem foldl_addKey_length_le (ks : List Key) (Ps : List ParamSet) : (Ps.foldl addKey ks).length ≤ ks.length + Ps.length := by
  induction Ps generalizing ks with
  | nil => simp
  | cons P Ps ih =>
    have h1 := ih (addKey ks P)
    have h2 := addKey_length_le ks P
    simp only [List.foldl_cons, List.length_cons]
    omega

theorem mem_addKey {P : ParamSet} (h : P.kind = .table) (ks : List Key) : P.toKey ∈ addKey ks P := by
  rcases addKey_cases ks P with ⟨-, -, h'⟩ | ⟨hs | hm, h'⟩
  · simp [h']
  · rw [h] at hs
    cases hs
  · rwa [h']

/-- Among the first `n + 1` variants there are at most `n + 1` keys, so variant `n` has a slot number of at most `n`. -/
theorem idxOf_foldl_addKey_le (ks : List Key) (Ps : List ParamSet) {n : Nat} {P : ParamSet} (hP : Ps[n]? = some P)
    (hk : P.kind = .table) : (Ps.foldl addKey ks).idxOf P.toKey ≤ ks.length + n ∧ P.toKey ∈ Ps.foldl addKey ks := by
  induction Ps generalizing ks n with
  | nil => simp at hP
  | cons Q Ps ih =>
    cases n with
    | zero =>
      obtain rfl : Q = P := by simpa using hP
      have hm := mem_addKey hk ks
      obtain ⟨l, hl⟩ := isPrefix_foldl_addKey (addKey ks Q) Ps
      have hlen := addKey_length_le ks Q
      have hidx := List.idxOf_lt_length_iff.mpr hm
      simp only [List.foldl_cons, ← hl]
      rw [List.idxOf_append_of_mem hm]
      exact ⟨by omega, by simp [hm]⟩
    | succ n =>
      have hlen := addKey_length_le ks Q
      obtain ⟨h1, h2⟩ := ih (addKey ks Q) (by simpa using hP)
      exact ⟨by simp only [List.foldl_cons]; omega, h2⟩

theorem Config.variant?_eq_some {c : Config} {vid : BitVec 4} {P : ParamSet} :
    c.variant? vid = some P ↔ vid.toNat ∈ c.enabled ∧ c.presets[vid.toNat]? = some P := by
  unfold Config.variant?
  split <;> simp_all

theorem Config.tableVariant?_eq_some {c : Config} {vid : BitVec 4} {P : ParamSet} :
    c.tableVariant? vid = some P ↔ c.variant? vid = some P ∧ P.kind = .table := by
  unfold Config.tableVariant?
  split
  · next Q h =>
    split <;> simp_all
    · rintro rfl
      assumption
    · rintro rfl
      assumption
  · next h => simp_all

theorem Config.tableVariant?_eq_none {c : Config} {vid : BitVec 4} :
    c.tableVariant? vid = none ↔ c.variant? vid = none ∨ ∃ P, c.variant? vid = some P ∧ P.kind = .sick := by
  unfold Config.tableVariant?
  split
  · next Q h =>
    cases hk : Q.kind <;> simp [h, hk]
  · next h => simp [h]

/-- A table-kind variant that a command can name has a slot below 16 (R9). -/
theorem Config.tid_lt {c : Config} {vid : BitVec 4} {P : ParamSet} (h : c.variant? vid = some P) (hk : P.kind = .table) :
    c.tid P < 16 := by
  have hP := (Config.variant?_eq_some.mp h).2
  have := (idxOf_foldl_addKey_le [] c.presets hP hk).1
  have hv : vid.toNat < 16 := vid.isLt
  simp only [Config.tid, Config.keys]
  simp only [List.length_nil] at this
  omega

/-- The key of that slot is the variant's (R52). -/
theorem Config.keys_tid {c : Config} {vid : BitVec 4} {P : ParamSet} (h : c.variant? vid = some P) (hk : P.kind = .table) :
    c.keys[c.tid P]? = some P.toKey := by
  have hP := (Config.variant?_eq_some.mp h).2
  have hm : P.toKey ∈ c.keys := (idxOf_foldl_addKey_le [] c.presets hP hk).2
  have hlt := List.idxOf_lt_length_iff.mpr hm
  simp only [Config.tid]
  rw [List.getElem?_eq_getElem hlt, List.getElem_idxOf hlt]

/-- That slot is one of the `NTAB` slots. -/
theorem Config.tid_lt_ntab {c : Config} {vid : BitVec 4} {P : ParamSet} (h : c.variant? vid = some P) (hk : P.kind = .table) :
    c.tid P < c.ntab := by
  have := Config.keys_tid h hk
  simp only [Config.ntab]
  exact (List.getElem?_eq_some_iff.mp this).1

/-- `NTAB <= 16` for a configuration of this block (R9). -/
theorem Config.ntab_le {c : Config} (h : c.wf = true) : c.ntab ≤ 16 := by
  have h16 : c.presets.length ≤ 16 := by
    simp only [Config.wf, Bool.and_eq_true, decide_eq_true_eq] at h
    exact h.1.1.1.1.2
  have := foldl_addKey_length_le [] c.presets
  simp only [Config.ntab, Config.keys]
  simp only [List.length_nil] at this
  omega

theorem Config.aw_bounds {c : Config} (h : c.wf = true) : 1 ≤ c.aw ∧ c.aw ≤ 64 := by
  simp only [Config.wf, Bool.and_eq_true, decide_eq_true_eq] at h
  exact h.1.1.1.1.1.1

/-- The ROM of a configuration of this block meets the source's check values (R7, R55). -/
theorem Config.attestedChecks {c : Config} (h : c.wf = true) : Machine.AttestedChecks c.presets := by
  rw [Config.wf, Bool.and_eq_true] at h
  exact of_decide_eq_true h.2

/-- A Sick-kind variant of a configuration of this block is 16 bits wide (R51). -/
theorem Config.sick_width {c : Config} {vid : BitVec 4} {P : ParamSet} (hc : c.wf = true) (h : c.variant? vid = some P)
    (hk : P.kind = .sick) : P.width = .w16 := by
  simp only [Config.wf, Bool.and_eq_true, List.all_eq_true] at hc
  have hP := (Config.variant?_eq_some.mp h).2
  have := hc.1.1.1.2 P (List.mem_of_getElem? hP)
  simp only [ParamSet.wf, hk, Bool.and_eq_true, decide_eq_true_eq] at this
  exact this.1

end Sys2Proof
end

