-- ==== Sys2Proof/Laws/State.lean ====
section
/-! SUPPORT. One lemma per field per named update of the state: what the update writes and what it leaves. -/

namespace Sys2Proof.Machine

@[simp] theorem writeCrc_crc (s : State) {w : Nat} (v : BitVec w) : (writeCrc s v).crc = toWidth 64 v := rfl
@[simp] theorem writeCrc_prev (s : State) {w : Nat} (v : BitVec w) : (writeCrc s v).prev = s.prev := rfl
@[simp] theorem writeCrc_baddr (s : State) {w : Nat} (v : BitVec w) : (writeCrc s v).baddr = s.baddr := rfl
@[simp] theorem writeCrc_blen (s : State) {w : Nat} (v : BitVec w) : (writeCrc s v).blen = s.blen := rfl
@[simp] theorem writeCrc_result (s : State) {w : Nat} (v : BitVec w) : (writeCrc s v).result = s.result := rfl
@[simp] theorem writeCrc_err (s : State) {w : Nat} (v : BitVec w) : (writeCrc s v).err = s.err := rfl
@[simp] theorem writeCrc_flt (s : State) {w : Nat} (v : BitVec w) : (writeCrc s v).flt = s.flt := rfl
@[simp] theorem writeCrc_einfo (s : State) {w : Nat} (v : BitVec w) : (writeCrc s v).einfo = s.einfo := rfl
@[simp] theorem writeCrc_tvalid (s : State) {w : Nat} (v : BitVec w) : (writeCrc s v).tvalid = s.tvalid := rfl
@[simp] theorem writeCrc_tent (s : State) {w : Nat} (v : BitVec w) : (writeCrc s v).tent = s.tent := rfl
@[simp] theorem writeCrc_mem (s : State) {w : Nat} (v : BitVec w) : (writeCrc s v).mem = s.mem := rfl
@[simp] theorem writeCrc_pending (s : State) {w : Nat} (v : BitVec w) : (writeCrc s v).pending = s.pending := rfl
@[simp] theorem writeCrc_rdata (s : State) {w : Nat} (v : BitVec w) : (writeCrc s v).rdata = s.rdata := rfl
@[simp] theorem writeCrc_cfg (s : State) {w : Nat} (v : BitVec w) : (writeCrc s v).cfg = s.cfg := rfl

@[simp] theorem writePrev_crc (s : State) (c : Byte) : (writePrev s c).crc = s.crc := rfl
@[simp] theorem writePrev_prev (s : State) (c : Byte) : (writePrev s c).prev = c := rfl
@[simp] theorem writePrev_baddr (s : State) (c : Byte) : (writePrev s c).baddr = s.baddr := rfl
@[simp] theorem writePrev_blen (s : State) (c : Byte) : (writePrev s c).blen = s.blen := rfl
@[simp] theorem writePrev_result (s : State) (c : Byte) : (writePrev s c).result = s.result := rfl
@[simp] theorem writePrev_err (s : State) (c : Byte) : (writePrev s c).err = s.err := rfl
@[simp] theorem writePrev_flt (s : State) (c : Byte) : (writePrev s c).flt = s.flt := rfl
@[simp] theorem writePrev_einfo (s : State) (c : Byte) : (writePrev s c).einfo = s.einfo := rfl
@[simp] theorem writePrev_tvalid (s : State) (c : Byte) : (writePrev s c).tvalid = s.tvalid := rfl
@[simp] theorem writePrev_tent (s : State) (c : Byte) : (writePrev s c).tent = s.tent := rfl
@[simp] theorem writePrev_mem (s : State) (c : Byte) : (writePrev s c).mem = s.mem := rfl
@[simp] theorem writePrev_pending (s : State) (c : Byte) : (writePrev s c).pending = s.pending := rfl
@[simp] theorem writePrev_rdata (s : State) (c : Byte) : (writePrev s c).rdata = s.rdata := rfl
@[simp] theorem writePrev_cfg (s : State) (c : Byte) : (writePrev s c).cfg = s.cfg := rfl

@[simp] theorem writeBaddr_crc (s : State) (v : Word) : (writeBaddr s v).crc = s.crc := rfl
@[simp] theorem writeBaddr_prev (s : State) (v : Word) : (writeBaddr s v).prev = s.prev := rfl
@[simp] theorem writeBaddr_baddr (s : State) (v : Word) : (writeBaddr s v).baddr = toWidth 64 (toWidth s.cfg.aw v) := rfl
@[simp] theorem writeBaddr_blen (s : State) (v : Word) : (writeBaddr s v).blen = s.blen := rfl
@[simp] theorem writeBaddr_result (s : State) (v : Word) : (writeBaddr s v).result = s.result := rfl
@[simp] theorem writeBaddr_err (s : State) (v : Word) : (writeBaddr s v).err = s.err := rfl
@[simp] theorem writeBaddr_flt (s : State) (v : Word) : (writeBaddr s v).flt = s.flt := rfl
@[simp] theorem writeBaddr_einfo (s : State) (v : Word) : (writeBaddr s v).einfo = s.einfo := rfl
@[simp] theorem writeBaddr_tvalid (s : State) (v : Word) : (writeBaddr s v).tvalid = s.tvalid := rfl
@[simp] theorem writeBaddr_tent (s : State) (v : Word) : (writeBaddr s v).tent = s.tent := rfl
@[simp] theorem writeBaddr_mem (s : State) (v : Word) : (writeBaddr s v).mem = s.mem := rfl
@[simp] theorem writeBaddr_pending (s : State) (v : Word) : (writeBaddr s v).pending = s.pending := rfl
@[simp] theorem writeBaddr_rdata (s : State) (v : Word) : (writeBaddr s v).rdata = s.rdata := rfl
@[simp] theorem writeBaddr_cfg (s : State) (v : Word) : (writeBaddr s v).cfg = s.cfg := rfl

@[simp] theorem writeBlen_crc (s : State) (v : Word) : (writeBlen s v).crc = s.crc := rfl
@[simp] theorem writeBlen_prev (s : State) (v : Word) : (writeBlen s v).prev = s.prev := rfl
@[simp] theorem writeBlen_baddr (s : State) (v : Word) : (writeBlen s v).baddr = s.baddr := rfl
@[simp] theorem writeBlen_blen (s : State) (v : Word) : (writeBlen s v).blen = v := rfl
@[simp] theorem writeBlen_result (s : State) (v : Word) : (writeBlen s v).result = s.result := rfl
@[simp] theorem writeBlen_err (s : State) (v : Word) : (writeBlen s v).err = s.err := rfl
@[simp] theorem writeBlen_flt (s : State) (v : Word) : (writeBlen s v).flt = s.flt := rfl
@[simp] theorem writeBlen_einfo (s : State) (v : Word) : (writeBlen s v).einfo = s.einfo := rfl
@[simp] theorem writeBlen_tvalid (s : State) (v : Word) : (writeBlen s v).tvalid = s.tvalid := rfl
@[simp] theorem writeBlen_tent (s : State) (v : Word) : (writeBlen s v).tent = s.tent := rfl
@[simp] theorem writeBlen_mem (s : State) (v : Word) : (writeBlen s v).mem = s.mem := rfl
@[simp] theorem writeBlen_pending (s : State) (v : Word) : (writeBlen s v).pending = s.pending := rfl
@[simp] theorem writeBlen_rdata (s : State) (v : Word) : (writeBlen s v).rdata = s.rdata := rfl
@[simp] theorem writeBlen_cfg (s : State) (v : Word) : (writeBlen s v).cfg = s.cfg := rfl

@[simp] theorem writeResult_crc (s : State) {w : Nat} (v : BitVec w) : (writeResult s v).crc = s.crc := rfl
@[simp] theorem writeResult_prev (s : State) {w : Nat} (v : BitVec w) : (writeResult s v).prev = s.prev := rfl
@[simp] theorem writeResult_baddr (s : State) {w : Nat} (v : BitVec w) : (writeResult s v).baddr = s.baddr := rfl
@[simp] theorem writeResult_blen (s : State) {w : Nat} (v : BitVec w) : (writeResult s v).blen = s.blen := rfl
@[simp] theorem writeResult_result (s : State) {w : Nat} (v : BitVec w) : (writeResult s v).result = toWidth 64 v := rfl
@[simp] theorem writeResult_err (s : State) {w : Nat} (v : BitVec w) : (writeResult s v).err = s.err := rfl
@[simp] theorem writeResult_flt (s : State) {w : Nat} (v : BitVec w) : (writeResult s v).flt = s.flt := rfl
@[simp] theorem writeResult_einfo (s : State) {w : Nat} (v : BitVec w) : (writeResult s v).einfo = s.einfo := rfl
@[simp] theorem writeResult_tvalid (s : State) {w : Nat} (v : BitVec w) : (writeResult s v).tvalid = s.tvalid := rfl
@[simp] theorem writeResult_tent (s : State) {w : Nat} (v : BitVec w) : (writeResult s v).tent = s.tent := rfl
@[simp] theorem writeResult_mem (s : State) {w : Nat} (v : BitVec w) : (writeResult s v).mem = s.mem := rfl
@[simp] theorem writeResult_pending (s : State) {w : Nat} (v : BitVec w) : (writeResult s v).pending = s.pending := rfl
@[simp] theorem writeResult_rdata (s : State) {w : Nat} (v : BitVec w) : (writeResult s v).rdata = s.rdata := rfl
@[simp] theorem writeResult_cfg (s : State) {w : Nat} (v : BitVec w) : (writeResult s v).cfg = s.cfg := rfl

@[simp] theorem fillSlot_crc (s : State) (t : Nat) (T : Vector Word 256) : (fillSlot s t T).crc = s.crc := rfl
@[simp] theorem fillSlot_prev (s : State) (t : Nat) (T : Vector Word 256) : (fillSlot s t T).prev = s.prev := rfl
@[simp] theorem fillSlot_baddr (s : State) (t : Nat) (T : Vector Word 256) : (fillSlot s t T).baddr = s.baddr := rfl
@[simp] theorem fillSlot_blen (s : State) (t : Nat) (T : Vector Word 256) : (fillSlot s t T).blen = s.blen := rfl
@[simp] theorem fillSlot_result (s : State) (t : Nat) (T : Vector Word 256) : (fillSlot s t T).result = s.result := rfl
@[simp] theorem fillSlot_err (s : State) (t : Nat) (T : Vector Word 256) : (fillSlot s t T).err = s.err := rfl
@[simp] theorem fillSlot_flt (s : State) (t : Nat) (T : Vector Word 256) : (fillSlot s t T).flt = s.flt := rfl
@[simp] theorem fillSlot_einfo (s : State) (t : Nat) (T : Vector Word 256) : (fillSlot s t T).einfo = s.einfo := rfl
@[simp] theorem fillSlot_tvalid (s : State) (t : Nat) (T : Vector Word 256) : (fillSlot s t T).tvalid = s.tvalid ||| BitVec.twoPow 16 t := rfl
@[simp] theorem fillSlot_tent (s : State) (t : Nat) (T : Vector Word 256) : (fillSlot s t T).tent = s.tent.setIfInBounds t T := rfl
@[simp] theorem fillSlot_mem (s : State) (t : Nat) (T : Vector Word 256) : (fillSlot s t T).mem = s.mem := rfl
@[simp] theorem fillSlot_pending (s : State) (t : Nat) (T : Vector Word 256) : (fillSlot s t T).pending = s.pending := rfl
@[simp] theorem fillSlot_rdata (s : State) (t : Nat) (T : Vector Word 256) : (fillSlot s t T).rdata = s.rdata := rfl
@[simp] theorem fillSlot_cfg (s : State) (t : Nat) (T : Vector Word 256) : (fillSlot s t T).cfg = s.cfg := rfl

@[simp] theorem complete_crc (s : State) : (complete s).crc = s.crc := rfl
@[simp] theorem complete_prev (s : State) : (complete s).prev = s.prev := rfl
@[simp] theorem complete_baddr (s : State) : (complete s).baddr = s.baddr := rfl
@[simp] theorem complete_blen (s : State) : (complete s).blen = s.blen := rfl
@[simp] theorem complete_result (s : State) : (complete s).result = s.result := rfl
@[simp] theorem complete_err (s : State) : (complete s).err = s.err := rfl
@[simp] theorem complete_flt (s : State) : (complete s).flt = false := rfl
@[simp] theorem complete_einfo (s : State) : (complete s).einfo = s.einfo := rfl
@[simp] theorem complete_tvalid (s : State) : (complete s).tvalid = s.tvalid := rfl
@[simp] theorem complete_tent (s : State) : (complete s).tent = s.tent := rfl
@[simp] theorem complete_mem (s : State) : (complete s).mem = s.mem := rfl
@[simp] theorem complete_pending (s : State) : (complete s).pending = s.pending := rfl
@[simp] theorem complete_rdata (s : State) : (complete s).rdata = s.rdata := rfl
@[simp] theorem complete_cfg (s : State) : (complete s).cfg = s.cfg := rfl

@[simp] theorem raise_crc (s : State) (f : BlockFault) (info : Word) : (raise s f info).crc = s.crc := rfl
@[simp] theorem raise_prev (s : State) (f : BlockFault) (info : Word) : (raise s f info).prev = s.prev := rfl
@[simp] theorem raise_baddr (s : State) (f : BlockFault) (info : Word) : (raise s f info).baddr = s.baddr := rfl
@[simp] theorem raise_blen (s : State) (f : BlockFault) (info : Word) : (raise s f info).blen = s.blen := rfl
@[simp] theorem raise_result (s : State) (f : BlockFault) (info : Word) : (raise s f info).result = s.result := rfl
@[simp] theorem raise_err (s : State) (f : BlockFault) (info : Word) : (raise s f info).err = if s.err = 0 then f.code else s.err := rfl
@[simp] theorem raise_flt (s : State) (f : BlockFault) (info : Word) : (raise s f info).flt = true := rfl
@[simp] theorem raise_einfo (s : State) (f : BlockFault) (info : Word) : (raise s f info).einfo = if s.err = 0 then info else s.einfo := rfl
@[simp] theorem raise_tvalid (s : State) (f : BlockFault) (info : Word) : (raise s f info).tvalid = s.tvalid := rfl
@[simp] theorem raise_tent (s : State) (f : BlockFault) (info : Word) : (raise s f info).tent = s.tent := rfl
@[simp] theorem raise_mem (s : State) (f : BlockFault) (info : Word) : (raise s f info).mem = s.mem := rfl
@[simp] theorem raise_pending (s : State) (f : BlockFault) (info : Word) : (raise s f info).pending = s.pending := rfl
@[simp] theorem raise_rdata (s : State) (f : BlockFault) (info : Word) : (raise s f info).rdata = s.rdata := rfl
@[simp] theorem raise_cfg (s : State) (f : BlockFault) (info : Word) : (raise s f info).cfg = s.cfg := rfl

@[simp] theorem raiseCmd_crc (s : State) (f : BlockFault) (i : Instr) : (raiseCmd s f i).crc = s.crc := rfl
@[simp] theorem raiseCmd_prev (s : State) (f : BlockFault) (i : Instr) : (raiseCmd s f i).prev = s.prev := rfl
@[simp] theorem raiseCmd_baddr (s : State) (f : BlockFault) (i : Instr) : (raiseCmd s f i).baddr = s.baddr := rfl
@[simp] theorem raiseCmd_blen (s : State) (f : BlockFault) (i : Instr) : (raiseCmd s f i).blen = s.blen := rfl
@[simp] theorem raiseCmd_result (s : State) (f : BlockFault) (i : Instr) : (raiseCmd s f i).result = s.result := rfl
@[simp] theorem raiseCmd_err (s : State) (f : BlockFault) (i : Instr) : (raiseCmd s f i).err = if s.err = 0 then f.code else s.err := rfl
@[simp] theorem raiseCmd_flt (s : State) (f : BlockFault) (i : Instr) : (raiseCmd s f i).flt = true := rfl
@[simp] theorem raiseCmd_einfo (s : State) (f : BlockFault) (i : Instr) : (raiseCmd s f i).einfo = if s.err = 0 then toWidth 64 (encode i) else s.einfo := rfl
@[simp] theorem raiseCmd_tvalid (s : State) (f : BlockFault) (i : Instr) : (raiseCmd s f i).tvalid = s.tvalid := rfl
@[simp] theorem raiseCmd_tent (s : State) (f : BlockFault) (i : Instr) : (raiseCmd s f i).tent = s.tent := rfl
@[simp] theorem raiseCmd_mem (s : State) (f : BlockFault) (i : Instr) : (raiseCmd s f i).mem = s.mem := rfl
@[simp] theorem raiseCmd_pending (s : State) (f : BlockFault) (i : Instr) : (raiseCmd s f i).pending = s.pending := rfl
@[simp] theorem raiseCmd_rdata (s : State) (f : BlockFault) (i : Instr) : (raiseCmd s f i).rdata = s.rdata := rfl
@[simp] theorem raiseCmd_cfg (s : State) (f : BlockFault) (i : Instr) : (raiseCmd s f i).cfg = s.cfg := rfl

@[simp] theorem resetBlock_crc (s : State) : (resetBlock s).crc = 0 := rfl
@[simp] theorem resetBlock_prev (s : State) : (resetBlock s).prev = 0 := rfl
@[simp] theorem resetBlock_baddr (s : State) : (resetBlock s).baddr = 0 := rfl
@[simp] theorem resetBlock_blen (s : State) : (resetBlock s).blen = 0 := rfl
@[simp] theorem resetBlock_result (s : State) : (resetBlock s).result = 0 := rfl
@[simp] theorem resetBlock_err (s : State) : (resetBlock s).err = 0 := rfl
@[simp] theorem resetBlock_flt (s : State) : (resetBlock s).flt = false := rfl
@[simp] theorem resetBlock_einfo (s : State) : (resetBlock s).einfo = 0 := rfl
@[simp] theorem resetBlock_tvalid (s : State) : (resetBlock s).tvalid = 0 := rfl
@[simp] theorem resetBlock_tent (s : State) : (resetBlock s).tent = State.reset.tent := rfl
@[simp] theorem resetBlock_mem (s : State) : (resetBlock s).mem = s.mem := rfl
@[simp] theorem resetBlock_pending (s : State) : (resetBlock s).pending = s.pending := rfl
@[simp] theorem resetBlock_rdata (s : State) : (resetBlock s).rdata = s.rdata := rfl
@[simp] theorem resetBlock_cfg (s : State) : (resetBlock s).cfg = s.cfg := rfl

/-- No update but the filling of a slot and the reset touches a slot's entries. -/
@[simp] theorem entry_writeCrc (s : State) {w : Nat} (v : BitVec w) (t : Nat) (i : Byte) : entry (writeCrc s v) t i = entry s t i := rfl
@[simp] theorem entry_writePrev (s : State) (c : Byte) (t : Nat) (i : Byte) : entry (writePrev s c) t i = entry s t i := rfl
@[simp] theorem entry_writeResult (s : State) {w : Nat} (v : BitVec w) (t : Nat) (i : Byte) : entry (writeResult s v) t i = entry s t i := rfl
@[simp] theorem entry_complete (s : State) (t : Nat) (i : Byte) : entry (complete s) t i = entry s t i := rfl
@[simp] theorem entry_raise (s : State) (f : BlockFault) (info : Word) (t : Nat) (i : Byte) : entry (raise s f info) t i = entry s t i := rfl
@[simp] theorem slotValid_writeCrc (s : State) {w : Nat} (v : BitVec w) (t : Nat) : slotValid (writeCrc s v) t = slotValid s t := rfl
@[simp] theorem slotValid_writePrev (s : State) (c : Byte) (t : Nat) : slotValid (writePrev s c) t = slotValid s t := rfl
@[simp] theorem slotValid_writeResult (s : State) {w : Nat} (v : BitVec w) (t : Nat) : slotValid (writeResult s v) t = slotValid s t := rfl
@[simp] theorem slotValid_complete (s : State) (t : Nat) : slotValid (complete s) t = slotValid s t := rfl
@[simp] theorem slotValid_raise (s : State) (f : BlockFault) (info : Word) (t : Nat) : slotValid (raise s f info) t = slotValid s t := rfl

end Sys2Proof.Machine
end

