-- ==== Sys2Proof/Laws/Tables.lean ====
section
/-! SUPPORT. The table store: what filling and ensuring a slot do, and that a right store stays right (R30, R31, R114). -/

namespace Sys2Proof.Machine

theorem slotValid_fillSlot {t : Nat} (ht : t < 16) (s : State) (T : Vector Word 256) (u : Nat) :
    slotValid (fillSlot s t T) u = (slotValid s u || decide (t = u)) := by
  simp only [slotValid, fillSlot_tvalid, BitVec.getLsbD_or, BitVec.getLsbD_twoPow]
  by_cases h : t = u
  · subst h
    simp [ht]
  · simp [h]

theorem entry_fillSlot {t : Nat} (ht : t < 16) (s : State) (T : Vector Word 256) (u : Nat) (i : Byte) :
    entry (fillSlot s t T) u i = if t = u then T[i.toNat] else entry s u i := by
  unfold entry
  by_cases hu : u < 16
  · have h : (s.tent.setIfInBounds t T)[u] = if t = u then T else s.tent[u] := Vector.getElem_setIfInBounds hu
    simp only [hu, dif_pos]
    show (s.tent.setIfInBounds t T)[u][i.toNat] = _
    rw [h]
    split <;> rfl
  · have : t ≠ u := by omega
    simp [hu, this]

/-- Entry `i` of the table as stored is `build_entry`, zero-extended (R112). -/
theorem getElem_storedTable (k : Key) (i : Byte) : (storedTable k)[i.toNat] = toWidth 64 (buildEntry k i) := by
  simp [storedTable]

/-- Entry `i` of `build_table` is `build_entry` (R112). -/
theorem tableAt_eq (k : Key) (i : Byte) : tableAt k i = buildEntry k i := by
  simp [tableAt, buildTable]

/-- `trunc_W` undoes `zext_64`, for the widths of this block. -/
theorem toWidth_toWidth (k : Key) (v : BitVec k.W) : toWidth k.W (toWidth 64 v) = v := by
  unfold toWidth
  rw [BitVec.setWidth_setWidth_of_le]
  · simp
  · cases h : k.width <;> simp [Key.W, h, Width.bits]

/-- What `ensure_table` does to a state (R114): nothing where the slot is valid or is no slot, else it builds the slot. -/
theorem ensureTable_cases (s : State) (t : Nat) :
    (ensureTable s t = s ∧ (slotValid s t = true ∨ s.cfg.keys[t]? = none)) ∨
      ∃ k, s.cfg.keys[t]? = some k ∧ slotValid s t = false ∧ ensureTable s t = fillSlot s t (storedTable k) := by
  unfold ensureTable
  split
  · next h => exact .inl ⟨rfl, .inl h⟩
  · next h =>
    split
    · next k hk => exact .inr ⟨k, hk, by simpa using h, rfl⟩
    · next hk => exact .inl ⟨rfl, .inr hk⟩

/-- `ensure_table` changes nothing but the table store. -/
theorem ensureTable_frame (s : State) (t : Nat) :
    ensureTable s t = { s with tvalid := (ensureTable s t).tvalid, tent := (ensureTable s t).tent } := by
  rcases ensureTable_cases s t with ⟨h, -⟩ | ⟨k, -, -, h⟩ <;> rw [h]
  rfl

@[simp] theorem ensureTable_crc (s : State) (t : Nat) : (ensureTable s t).crc = s.crc := by rw [ensureTable_frame]
@[simp] theorem ensureTable_prev (s : State) (t : Nat) : (ensureTable s t).prev = s.prev := by rw [ensureTable_frame]
@[simp] theorem ensureTable_baddr (s : State) (t : Nat) : (ensureTable s t).baddr = s.baddr := by rw [ensureTable_frame]
@[simp] theorem ensureTable_blen (s : State) (t : Nat) : (ensureTable s t).blen = s.blen := by rw [ensureTable_frame]
@[simp] theorem ensureTable_result (s : State) (t : Nat) : (ensureTable s t).result = s.result := by rw [ensureTable_frame]
@[simp] theorem ensureTable_err (s : State) (t : Nat) : (ensureTable s t).err = s.err := by rw [ensureTable_frame]
@[simp] theorem ensureTable_flt (s : State) (t : Nat) : (ensureTable s t).flt = s.flt := by rw [ensureTable_frame]
@[simp] theorem ensureTable_einfo (s : State) (t : Nat) : (ensureTable s t).einfo = s.einfo := by rw [ensureTable_frame]
@[simp] theorem ensureTable_mem (s : State) (t : Nat) : (ensureTable s t).mem = s.mem := by rw [ensureTable_frame]
@[simp] theorem ensureTable_pending (s : State) (t : Nat) : (ensureTable s t).pending = s.pending := by rw [ensureTable_frame]
@[simp] theorem ensureTable_rdata (s : State) (t : Nat) : (ensureTable s t).rdata = s.rdata := by rw [ensureTable_frame]
@[simp] theorem ensureTable_cfg (s : State) (t : Nat) : (ensureTable s t).cfg = s.cfg := by rw [ensureTable_frame]

@[simp] theorem memRead_ensureTable (s : State) (t a : Nat) : memRead (ensureTable s t) a = memRead s a := by
  simp [memRead]

/-- After `ensure_table` of a slot with a key: the slot is valid, it holds what it held where it was valid and the key's
table where it was not, and no other slot has changed (R114). -/
theorem ensureTable_spec {s : State} {t : Nat} {k : Key} (ht : t < 16) (hk : s.cfg.keys[t]? = some k) :
    (∀ u, slotValid (ensureTable s t) u = (slotValid s u || decide (t = u))) ∧
      (∀ u i, entry (ensureTable s t) u i =
        if t = u ∧ slotValid s t = false then toWidth 64 (buildEntry k i) else entry s u i) := by
  rcases ensureTable_cases s t with ⟨h, hv | hn⟩ | ⟨k', hk', hv, h⟩
  · refine ⟨fun u => ?_, fun u i => by simp [h, hv]⟩
    by_cases hu : t = u
    · subst hu
      simp [h, hv]
    · simp [h, hu]
  · rw [hk] at hn
    cases hn
  · obtain rfl : k' = k := by simpa [hk] using hk'.symm
    refine ⟨fun u => by rw [h, slotValid_fillSlot ht], fun u i => ?_⟩
    rw [h, entry_fillSlot ht, getElem_storedTable]
    simp [hv]

theorem ensureTable_slotEnsured {s : State} {t : Nat} {k : Key} (ht : t < 16) (hk : s.cfg.keys[t]? = some k) :
    SlotEnsured s (ensureTable s t) t k := by
  obtain ⟨hv, he⟩ := ensureTable_spec ht hk
  refine ⟨by simp [hv], fun i => ?_, fun u hu => ⟨?_, fun i => ?_⟩⟩
  · rw [he]
    cases slotValid s t <;> simp
  · simp [hv, hu.symm]
  · simp [he, hu.symm]

/-- Ensuring a slot keeps a right table store right. -/
theorem TablesRight.ensureTable {s : State} (hs : TablesRight s) {t : Nat} {k : Key} (ht : t < 16) (hk : s.cfg.keys[t]? = some k) :
    TablesRight (Sys2Proof.Machine.ensureTable s t) := by
  obtain ⟨hv, he⟩ := ensureTable_spec ht hk
  constructor
  · intro u hu
    rw [hv] at hu
    rw [ensureTable_cfg]
    rcases Bool.or_eq_true_iff.mp hu with hu | hu
    · exact hs.unused u hu
    · obtain rfl : t = u := by simpa using hu
      exact (List.getElem?_eq_some_iff.mp hk).1
  · intro u k' hu hk' i
    rw [ensureTable_cfg] at hk'
    rw [he]
    split
    · next h =>
      obtain ⟨rfl, -⟩ := h
      obtain rfl : k = k' := by simpa [hk] using hk'
      rfl
    · next h =>
      refine hs.contents u k' ?_ hk' i
      rw [hv] at hu
      rcases Bool.or_eq_true_iff.mp hu with hu | hu
      · exact hu
      · obtain rfl : t = u := by simpa using hu
        simpa using h

/-- In a right store, the table a command of a variant reads is the variant's `build_table` (R31). -/
theorem TablesRight.slotTable {s : State} (hs : TablesRight s) {vid : BitVec 4} {P : ParamSet} (h : s.cfg.variant? vid = some P)
    (hk : P.kind = .table) :
    Sys2Proof.Machine.slotTable (Sys2Proof.Machine.ensureTable s (s.cfg.tid P)) (s.cfg.tid P) P.W = tableAt P.toKey := by
  have ht := Config.tid_lt h hk
  have hkey := Config.keys_tid h hk
  funext i
  have hr := (hs.ensureTable ht hkey).contents (s.cfg.tid P) P.toKey ?_ (by rw [ensureTable_cfg]; exact hkey) i
  · rw [Sys2Proof.Machine.slotTable, hr, tableAt_eq]
    exact toWidth_toWidth P.toKey _
  · rw [(ensureTable_spec ht hkey).1]
    simp

/-- A right store's invariant reads the table store and the configuration alone. -/
theorem TablesRight.congr {s t : State} (hs : TablesRight s) (hv : t.tvalid = s.tvalid) (he : t.tent = s.tent) (hc : t.cfg = s.cfg) :
    TablesRight t := by
  have h1 : ∀ u, slotValid t u = slotValid s u := fun u => by simp [slotValid, hv]
  have h2 : ∀ u i, entry t u i = entry s u i := fun u i => by simp [entry, he]
  constructor
  · intro u hu
    rw [hc]
    exact hs.unused u (by rwa [← h1])
  · intro u k hu hk i
    rw [h2]
    exact hs.contents u k (by rwa [← h1]) (by rwa [← hc]) i

end Sys2Proof.Machine
end

