-- ==== Sys2Proof/Laws/Exec.lean ====
section
/-! SUPPORT. What each command answers, case by case; every command answers a next state (R16, R174). -/

namespace Sys2Proof.Machine

@[simp] theorem exec_nop (s : State) : exec .nop s = .next (complete s) := rfl

@[simp] theorem exec_sreset (s : State) : exec .sreset s = .next (resetBlock s) := rfl

theorem exec_tbuild_none {s : State} {vid : BitVec 4} (h : s.cfg.tableVariant? vid = none) :
    exec (.tbuild vid) s = .next (raiseCmd s .illegalVariant (.tbuild vid)) := by
  simp [exec, execTbuild, h]

theorem exec_tbuild_some {s : State} {vid : BitVec 4} {P : ParamSet} (h : s.cfg.tableVariant? vid = some P) :
    exec (.tbuild vid) s = .next (complete (ensureTable s (s.cfg.tid P))) := by
  simp [exec, execTbuild, h]

theorem exec_tread_none {s : State} {vid : BitVec 4} {index : Byte} (h : s.cfg.tableVariant? vid = none) :
    exec (.tread vid index) s = .next (raiseCmd s .illegalVariant (.tread vid index)) := by
  simp [exec, execTread, h]

theorem exec_tread_some {s : State} {vid : BitVec 4} {index : Byte} {P : ParamSet} (h : s.cfg.tableVariant? vid = some P) :
    exec (.tread vid index) s =
      .next (complete (writeResult (ensureTable s (s.cfg.tid P))
        (slotTable (ensureTable s (s.cfg.tid P)) (s.cfg.tid P) P.W index))) := by
  simp [exec, execTread, h]

theorem exec_cinit_none {s : State} {vid : BitVec 4} (h : s.cfg.variant? vid = none) :
    exec (.cinit vid) s = .next (raiseCmd s .illegalVariant (.cinit vid)) := by
  simp [exec, execCinit, h]

theorem exec_cinit_table {s : State} {vid : BitVec 4} {P : ParamSet} (h : s.cfg.variant? vid = some P) (hk : P.kind = .table) :
    exec (.cinit vid) s = .next (complete (writeCrc s P.init)) := by
  simp [exec, execCinit, h, hk]

theorem exec_cinit_sick {s : State} {vid : BitVec 4} {P : ParamSet} (h : s.cfg.variant? vid = some P) (hk : P.kind = .sick) :
    exec (.cinit vid) s = .next (complete (writePrev (writeCrc s P.init) 0)) := by
  simp [exec, execCinit, h, hk]

theorem exec_step_none {s : State} {vid : BitVec 4} {c : Byte} (h : s.cfg.variant? vid = none) :
    exec (.step vid c) s = .next (raiseCmd s .illegalVariant (.step vid c)) := by
  simp [exec, execStep, h]

theorem exec_step_table {s : State} {vid : BitVec 4} {c : Byte} {P : ParamSet} (h : s.cfg.variant? vid = some P)
    (hk : P.kind = .table) :
    exec (.step vid c) s =
      .next (complete (writeCrc (ensureTable s (s.cfg.tid P))
        (foldByte P.toKey (slotTable (ensureTable s (s.cfg.tid P)) (s.cfg.tid P) P.W) (readCrc s P.W) c))) := by
  simp [exec, execStep, h, hk]

theorem exec_step_sick {s : State} {vid : BitVec 4} {c : Byte} {P : ParamSet} (h : s.cfg.variant? vid = some P)
    (hk : P.kind = .sick) :
    exec (.step vid c) s = .next (complete (writePrev (writeCrc s (Config.sickStep (readCrc s 16) c s.prev)) c)) := by
  simp [exec, execStep, h, hk]

theorem exec_cfinal_none {s : State} {vid : BitVec 4} (h : s.cfg.variant? vid = none) :
    exec (.cfinal vid) s = .next (raiseCmd s .illegalVariant (.cfinal vid)) := by
  simp [exec, execCfinal, h]

theorem exec_cfinal_some {s : State} {vid : BitVec 4} {P : ParamSet} (h : s.cfg.variant? vid = some P) :
    exec (.cfinal vid) s = .next (complete (writeResult s (finalize P (readCrc s P.W)))) := by
  simp [exec, execCfinal, h]

theorem exec_compute_none {s : State} {vid : BitVec 4} (h : s.cfg.variant? vid = none) :
    exec (.compute vid) s = .next (raiseCmd s .illegalVariant (.compute vid)) := by
  simp [exec, execCompute, h]

theorem exec_compute_null {s : State} {vid : BitVec 4} {P : ParamSet} (h : s.cfg.variant? vid = some P) (hn : nullBuffer s = true) :
    exec (.compute vid) s = .next (raiseCmd s .invalidArgument (.compute vid)) := by
  simp [exec, execCompute, h, hn]

theorem exec_compute_range {s : State} {vid : BitVec 4} {P : ParamSet} (h : s.cfg.variant? vid = some P) (hn : nullBuffer s = false)
    (hr : bufferPastTop s = true) : exec (.compute vid) s = .next (raiseCmd s .bufferRange (.compute vid)) := by
  simp [exec, execCompute, h, hn, hr]

theorem exec_compute_table {s : State} {vid : BitVec 4} {P : ParamSet} (h : s.cfg.variant? vid = some P) (hn : nullBuffer s = false)
    (hr : bufferPastTop s = false) (hk : P.kind = .table) :
    exec (.compute vid) s =
      .next (foldInto (ensureTable s (s.cfg.tid P))
        (computeWith P (slotTable (ensureTable s (s.cfg.tid P)) (s.cfg.tid P) P.W))) := by
  simp [exec, execCompute, h, hn, hr, hk]

theorem exec_compute_sick {s : State} {vid : BitVec 4} {P : ParamSet} (h : s.cfg.variant? vid = some P) (hn : nullBuffer s = false)
    (hr : bufferPastTop s = false) (hk : P.kind = .sick) : exec (.compute vid) s = .next (foldInto s (computeSick P)) := by
  simp [exec, execCompute, h, hn, hr, hk]

theorem foldInto_ok {s : State} {w : Nat} {f : List Byte → BitVec w} {B : List Byte}
    (h : readBuffer s (bufAddr s) (bufLen s) = .ok B) : foldInto s f = complete (writeResult s (f B)) := by
  simp [foldInto, h]

theorem foldInto_error {s : State} {w : Nat} {f : List Byte → BitVec w} {a : Nat}
    (h : readBuffer s (bufAddr s) (bufLen s) = .error a) : foldInto s f = raise s .busError (BitVec.ofNat 64 a) := by
  simp [foldInto, h]

/-- The loop of COMPUTE completes with the bytes' result or records a bus error; there is no third outcome. -/
theorem foldInto_cases (s : State) {w : Nat} (f : List Byte → BitVec w) :
    (∃ B, readBuffer s (bufAddr s) (bufLen s) = .ok B ∧ foldInto s f = complete (writeResult s (f B))) ∨
      ∃ a, readBuffer s (bufAddr s) (bufLen s) = .error a ∧ foldInto s f = raise s .busError (BitVec.ofNat 64 a) := by
  cases h : readBuffer s (bufAddr s) (bufLen s) with
  | ok B => exact .inl ⟨B, rfl, foldInto_ok h⟩
  | error a => exact .inr ⟨a, rfl, foldInto_error h⟩

theorem nullBuffer_iff (s : State) : nullBuffer s = true ↔ s.baddr = 0 ∧ s.blen ≠ 0 := by
  unfold nullBuffer
  rw [Bool.and_eq_true, decide_eq_true_iff, decide_eq_true_iff]
  simp [bufAddr, bufLen, BitVec.toNat_eq]

theorem bufferPastTop_iff (s : State) : bufferPastTop s = true ↔ s.baddr.toNat + s.blen.toNat > 2 ^ s.cfg.aw := by
  simp [bufferPastTop, bufAddr, bufLen]

theorem bufferAccepted_iff (s : State) : BufferAccepted s ↔ nullBuffer s = false ∧ bufferPastTop s = false := by
  rw [← Bool.not_eq_true (nullBuffer s), ← Bool.not_eq_true (bufferPastTop s), nullBuffer_iff, bufferPastTop_iff]
  simp [BufferAccepted]

theorem bufferHolds_iff (s : State) (B : List Byte) : BufferHolds s B ↔ readBuffer s (bufAddr s) (bufLen s) = .ok B :=
  readBuffer_ok_iff.symm

/-- Every command but SRESET ends in one of these forms: a fault raised on the state as it was; a completion of a state
that differs from it in `CRC`, `PREV`, `RESULT` and, where its variant has a slot, in that slot as `ensure_table` leaves
it; or a bus error after `ensure_table`. -/
theorem exec_cases (i : Instr) (s : State) :
    (i = .sreset ∧ exec i s = .next (resetBlock s)) ∨
      (∃ f, f ≠ .busError ∧ exec i s = .next (raiseCmd s f i)) ∨
      (∃ crc prev result, exec i s = .next (complete { s with crc := crc, prev := prev, result := result })) ∨
      (∃ vid P crc result, i.vid? = some vid ∧ s.cfg.variant? vid = some P ∧ P.kind = .table ∧
        exec i s = .next (complete { ensureTable s (s.cfg.tid P) with crc := crc, result := result })) ∨
      (∃ vid a, i = .compute vid ∧ exec i s = .next (raise s .busError (BitVec.ofNat 64 a))) ∨
      ∃ vid P a, i = .compute vid ∧ s.cfg.variant? vid = some P ∧ P.kind = .table ∧
        exec i s = .next (raise (ensureTable s (s.cfg.tid P)) .busError (BitVec.ofNat 64 a)) := by
  cases i with
  | nop => exact .inr (.inr (.inl ⟨s.crc, s.prev, s.result, rfl⟩))
  | sreset => exact .inl ⟨rfl, rfl⟩
  | tbuild vid =>
    cases h : s.cfg.tableVariant? vid with
    | none => exact .inr (.inl ⟨.illegalVariant, by simp, exec_tbuild_none h⟩)
    | some P =>
      obtain ⟨hv, hk⟩ := Config.tableVariant?_eq_some.mp h
      refine .inr (.inr (.inr (.inl ⟨vid, P, (ensureTable s (s.cfg.tid P)).crc, (ensureTable s (s.cfg.tid P)).result, rfl, hv, hk, ?_⟩)))
      exact exec_tbuild_some h
  | tread vid index =>
    cases h : s.cfg.tableVariant? vid with
    | none => exact .inr (.inl ⟨.illegalVariant, by simp, exec_tread_none h⟩)
    | some P =>
      obtain ⟨hv, hk⟩ := Config.tableVariant?_eq_some.mp h
      refine .inr (.inr (.inr (.inl ⟨vid, P, (ensureTable s (s.cfg.tid P)).crc, _, rfl, hv, hk, exec_tread_some h⟩)))
  | cinit vid =>
    cases h : s.cfg.variant? vid with
    | none => exact .inr (.inl ⟨.illegalVariant, by simp, exec_cinit_none h⟩)
    | some P =>
      cases hk : P.kind with
      | table => exact .inr (.inr (.inl ⟨_, s.prev, s.result, exec_cinit_table h hk⟩))
      | sick => exact .inr (.inr (.inl ⟨_, _, s.result, exec_cinit_sick h hk⟩))
  | step vid c =>
    cases h : s.cfg.variant? vid with
    | none => exact .inr (.inl ⟨.illegalVariant, by simp, exec_step_none h⟩)
    | some P =>
      cases hk : P.kind with
      | table =>
        refine .inr (.inr (.inr (.inl ⟨vid, P, _, (ensureTable s (s.cfg.tid P)).result, rfl, h, hk, exec_step_table h hk⟩)))
      | sick => exact .inr (.inr (.inl ⟨_, _, s.result, exec_step_sick h hk⟩))
  | cfinal vid =>
    cases h : s.cfg.variant? vid with
    | none => exact .inr (.inl ⟨.illegalVariant, by simp, exec_cfinal_none h⟩)
    | some P => exact .inr (.inr (.inl ⟨s.crc, s.prev, _, exec_cfinal_some h⟩))
  | compute vid =>
    cases h : s.cfg.variant? vid with
    | none => exact .inr (.inl ⟨.illegalVariant, by simp, exec_compute_none h⟩)
    | some P =>
      cases hn : nullBuffer s with
      | true => exact .inr (.inl ⟨.invalidArgument, by simp, exec_compute_null h hn⟩)
      | false =>
        cases hr : bufferPastTop s with
        | true => exact .inr (.inl ⟨.bufferRange, by simp, exec_compute_range h hn hr⟩)
        | false =>
          cases hk : P.kind with
          | table =>
            have he := exec_compute_table h hn hr hk
            rcases foldInto_cases (ensureTable s (s.cfg.tid P))
              (computeWith P (slotTable (ensureTable s (s.cfg.tid P)) (s.cfg.tid P) P.W)) with ⟨B, -, hB⟩ | ⟨a, -, ha⟩
            · rw [hB] at he
              exact .inr (.inr (.inr (.inl ⟨vid, P, (ensureTable s (s.cfg.tid P)).crc, _, rfl, h, hk, he⟩)))
            · rw [ha] at he
              exact .inr (.inr (.inr (.inr (.inr ⟨vid, P, a, rfl, h, hk, he⟩))))
          | sick =>
            have he := exec_compute_sick h hn hr hk
            rcases foldInto_cases s (computeSick P) with ⟨B, -, hB⟩ | ⟨a, -, ha⟩
            · rw [hB] at he
              exact .inr (.inr (.inl ⟨s.crc, s.prev, _, he⟩))
            · rw [ha] at he
              exact .inr (.inr (.inr (.inr (.inl ⟨vid, a, rfl, he⟩))))

/-- Every command answers a next state. -/
theorem exec_next (i : Instr) (s : State) : ∃ t, exec i s = .next t := by
  rcases exec_cases i s with ⟨-, h⟩ | ⟨_, -, h⟩ | ⟨_, _, _, h⟩ | ⟨_, _, _, _, -, -, -, h⟩ | ⟨_, _, -, h⟩ | ⟨_, _, _, -, -, -, h⟩ <;>
    exact ⟨_, h⟩

/-- Every command word answers a next state. -/
theorem execWord_next (w : CmdWord) (s : State) : ∃ t, execWord w s = .next t := by
  unfold execWord
  split
  · exact exec_next _ s
  · exact ⟨_, rfl⟩

end Sys2Proof.Machine
end

