-- ==== Sys2Proof/Laws/PerInstr.lean ====
section
/-! SUPPORT. Facts about every command as it is encoded, one lemma per constructor. -/

namespace Sys2Proof.Laws.Encoding

/-- The value of the word is the sum of R91. -/
theorem toNat_encodeFields (op vid : BitVec 4) (imm8 : Byte) :
    (encodeFields op vid imm8).toNat = op.toNat + 16 * vid.toNat + 256 * imm8.toNat := by
  have h1 := op.isLt
  have h2 := vid.isLt
  have h3 := imm8.isLt
  simp only [encodeFields, BitVec.toNat_ofNat]
  omega

theorem toNat_field (w : CmdWord) (start len : Nat) : (w.extractLsb' start len).toNat = w.toNat / 2 ^ start % 2 ^ len := by
  simp [BitVec.extractLsb'_toNat, Nat.shiftRight_eq_div_pow]

@[simp] theorem opField_encodeFields (op vid : BitVec 4) (imm8 : Byte) : opField (encodeFields op vid imm8) = op := by
  apply BitVec.eq_of_toNat_eq
  have h1 := op.isLt
  rw [opField, toNat_field, toNat_encodeFields]
  omega

@[simp] theorem vidField_encodeFields (op vid : BitVec 4) (imm8 : Byte) : vidField (encodeFields op vid imm8) = vid := by
  apply BitVec.eq_of_toNat_eq
  have h1 := op.isLt
  have h2 := vid.isLt
  rw [vidField, toNat_field, toNat_encodeFields]
  omega

@[simp] theorem immField_encodeFields (op vid : BitVec 4) (imm8 : Byte) : immField (encodeFields op vid imm8) = imm8 := by
  apply BitVec.eq_of_toNat_eq
  have h1 := op.isLt
  have h2 := vid.isLt
  have h3 := imm8.isLt
  rw [immField, toNat_field, toNat_encodeFields]
  omega

@[simp] theorem zeroField_encodeFields (op vid : BitVec 4) (imm8 : Byte) : zeroField (encodeFields op vid imm8) = 0 := by
  apply BitVec.eq_of_toNat_eq
  have h1 := op.isLt
  have h2 := vid.isLt
  have h3 := imm8.isLt
  rw [zeroField, toNat_field, toNat_encodeFields]
  show _ = 0
  omega

/-- A word is the sum of its four fields (R90). -/
theorem toNat_eq_fields (w : CmdWord) :
    w.toNat = (opField w).toNat + 16 * (vidField w).toNat + 256 * (immField w).toNat + 65536 * (zeroField w).toNat := by
  have h := w.isLt
  simp only [opField, vidField, immField, zeroField, toNat_field]
  omega

/-- The shape of a command's word: the opcode in its place, 0 in the `zero` field and in every field the command does not
use, and the command's own operands in the fields it uses (R91, R93). -/
def Statement (i : Instr) : Prop :=
  (∃ n, opcodeMap[(opField (encode i)).toNat]? = some n ∧ n.mnemonic = i.mnemonic) ∧
    zeroField (encode i) = 0 ∧ vidField (encode i) = i.vid?.getD 0 ∧ immField (encode i) = i.imm?.getD 0

theorem nop : Statement .nop := by
  refine ⟨⟨_, rfl, rfl⟩, ?_, ?_, ?_⟩ <;> decide

theorem tbuild (vid : BitVec 4) : Statement (.tbuild vid) := by
  simp [Statement, encode, Instr.vid?, Instr.imm?, opcodeMap, Instr.mnemonic]

theorem tread (vid : BitVec 4) (index : Byte) : Statement (.tread vid index) := by
  simp [Statement, encode, Instr.vid?, Instr.imm?, opcodeMap, Instr.mnemonic]

theorem cinit (vid : BitVec 4) : Statement (.cinit vid) := by
  simp [Statement, encode, Instr.vid?, Instr.imm?, opcodeMap, Instr.mnemonic]

theorem step (vid : BitVec 4) (c : Byte) : Statement (.step vid c) := by
  simp [Statement, encode, Instr.vid?, Instr.imm?, opcodeMap, Instr.mnemonic]

theorem cfinal (vid : BitVec 4) : Statement (.cfinal vid) := by
  simp [Statement, encode, Instr.vid?, Instr.imm?, opcodeMap, Instr.mnemonic]

theorem compute (vid : BitVec 4) : Statement (.compute vid) := by
  simp [Statement, encode, Instr.vid?, Instr.imm?, opcodeMap, Instr.mnemonic]

theorem sreset : Statement .sreset := by
  refine ⟨⟨_, rfl, rfl⟩, ?_, ?_, ?_⟩ <;> decide

end Sys2Proof.Laws.Encoding
end

