-- ==== Sys2Proof/Laws/Runs.lean ====
section
/-! SUPPORT. Runs (R239): how a run is made of its actions, and that no host action depends on what is pending after it. -/

namespace Sys2Proof.Machine

/-- An outcome with the actions `p` pending. -/
def withPending (p : List HostAction) : Host.Outcome State Fault Refusal → Host.Outcome State Fault Refusal
  | .next t => .next { t with pending := p }
  | .fault f => .fault f
  | .refused r => .refused r

@[simp] theorem runActions_nil (s : State) : runActions [] s = .next s := rfl

/-- A run to a state goes through the state after its first action. -/
theorem runActions_cons_eq_next {act : HostAction} {rest : List HostAction} {s t : State} :
    runActions (act :: rest) s = .next t ↔ ∃ u, hostAct act s = .next u ∧ runActions rest u = .next t := by
  rw [runActions]
  cases hostAct act s <;> simp

theorem ensureTable_withPending (s : State) (p : List HostAction) (t : Nat) :
    ensureTable { s with pending := p } t = { ensureTable s t with pending := p } := by
  cases hv : s.tvalid.getLsbD t <;> cases hk : s.cfg.keys[t]? <;> simp only [ensureTable, slotValid, hv, hk] <;> rfl

theorem foldInto_withPending (s : State) (p : List HostAction) {w : Nat} (f : List Byte → BitVec w) :
    foldInto { s with pending := p } f = { foldInto s f with pending := p } := by
  have h := readBuffer_congr (s := { s with pending := p }) (t := s) (fun _ => rfl) s.baddr.toNat s.blen.toNat
  cases hr : readBuffer s s.baddr.toNat s.blen.toNat <;> simp only [foldInto, bufAddr, bufLen, h, hr] <;> rfl

/-- No command depends on the pending actions or changes them. -/
theorem exec_withPending (i : Instr) (s : State) (p : List HostAction) :
    exec i { s with pending := p } = withPending p (exec i s) := by
  cases i with
  | nop => rfl
  | sreset => rfl
  | tbuild vid =>
    cases h : s.cfg.tableVariant? vid <;> simp only [exec, execTbuild, h, ensureTable_withPending] <;> rfl
  | tread vid index =>
    cases h : s.cfg.tableVariant? vid <;> simp only [exec, execTread, h, ensureTable_withPending] <;> rfl
  | cinit vid =>
    cases h : s.cfg.variant? vid with
    | none => simp only [exec, execCinit, h]; rfl
    | some P => cases hk : P.kind <;> simp only [exec, execCinit, h, hk] <;> rfl
  | step vid c =>
    cases h : s.cfg.variant? vid with
    | none => simp only [exec, execStep, h]; rfl
    | some P => cases hk : P.kind <;> simp only [exec, execStep, h, hk, ensureTable_withPending] <;> rfl
  | cfinal vid => cases h : s.cfg.variant? vid <;> simp only [exec, execCfinal, h] <;> rfl
  | compute vid =>
    have hn : nullBuffer { s with pending := p } = nullBuffer s := rfl
    have hr : bufferPastTop { s with pending := p } = bufferPastTop s := rfl
    cases h : s.cfg.variant? vid with
    | none => simp only [exec, execCompute, h]; rfl
    | some P =>
      cases hn' : nullBuffer s <;> cases hr' : bufferPastTop s <;> cases hk : P.kind <;>
        simp only [exec, execCompute, h, hn, hr, hn', hr', hk, ensureTable_withPending, foldInto_withPending] <;> rfl

/-- No host action depends on the pending actions or changes them. -/
theorem hostAct_withPending (act : HostAction) (s : State) (p : List HostAction) :
    hostAct act { s with pending := p } = withPending p (hostAct act s) := by
  cases act with
  | read r => cases r <;> rfl
  | reset => rfl
  | memWrite a b =>
    by_cases h : a.toNat < 2 ^ s.cfg.aw <;> simp only [hostAct, platformWrite, h] <;> rfl
  | write r v =>
    cases r with
    | cmd =>
      cases h : decode (toWidth 32 v) with
      | ok i => simp only [hostAct, hostWrite, execWord, h, exec_withPending]
      | error e => simp only [hostAct, hostWrite, execWord, h]; rfl
    | _ => rfl

end Sys2Proof.Machine
end

