-- ==== Sys2Proof/Machine/Listing.lean ====
section
/-! DEFINITION. The assembler syntax of R96, as it is printed in the spec's listings; the variant names are R98's. No meaning uses it. -/

namespace Sys2Proof.Machine

/-- `variant` (R96): a name of the default ROM, or a decimal number where it has none. -/
def variantText (vid : BitVec 4) : String :=
  match variantNames[vid.toNat]? with
  | some name => name
  | none => toString vid.toNat

/-- A command in the syntax of R96, the immediate in decimal. -/
def asm : Instr → String
  | .nop => "NOP"
  | .tbuild v => "TBUILD " ++ variantText v
  | .tread v i => "TREAD " ++ variantText v ++ ", #" ++ toString i.toNat
  | .cinit v => "CINIT " ++ variantText v
  | .step v c => "STEP " ++ variantText v ++ ", #" ++ toString c.toNat
  | .cfinal v => "CFINAL " ++ variantText v
  | .compute v => "COMPUTE " ++ variantText v
  | .sreset => "SRESET"

end Sys2Proof.Machine
end

