-- ==== Sys2Proof/Tests/Slice0.lean ====
section
/-! SUPPORT. Tests: words and values taken from the spec's tables and vectors, ill-formed terms the checks refuse, and for each statement with hypotheses a concrete case that meets them. -/

-- One theorem at a time: each waiting kernel evaluation would otherwise hold a thread of its own.
set_option Elab.async false

namespace Sys2Proof.Tests

open Sys2Proof Sys2Proof.Machine

/-! ## Helpers -/

/-- Whether an outcome is a next state. -/
def isNext (o : Host.Outcome State Fault Refusal) : Bool :=
  match o with
  | .next _ => true
  | _ => false

/-- The next state of an outcome; the reset state where there is none. -/
def after (o : Host.Outcome State Fault Refusal) : State :=
  match o with
  | .next s => s
  | _ => State.reset

theorem next_after {o : Host.Outcome State Fault Refusal} (h : isNext o = true) : o = .next (after o) := by
  cases o with
  | next s => rfl
  | fault f => cases h
  | refused r => cases h

theorem test_default_wf : Config.default.wf = true := by decide +kernel

/-- Reset state with M9 at 0x1000 and the registers describing it. -/
def withM9 : State :=
  { State.reset with
    baddr := 0x1000
    blen := 9
    mem := [(0x1000, 0x31), (0x1001, 0x32), (0x1002, 0x33), (0x1003, 0x34), (0x1004, 0x35), (0x1005, 0x36), (0x1006, 0x37),
      (0x1007, 0x38), (0x1008, 0x39)] }

/-- The same with a configuration whose memory answers `error` at 0x1005. -/
def withHole : State := { withM9 with cfg := { Config.default with memErr := [0x1005] } }

/-- A null buffer of length 4. -/
def nullFour : State := { State.reset with blen := 4 }

theorem withM9_inv : withM9.Inv :=
  ⟨test_default_wf, by decide, by decide, by decide, by decide, fun _ => rfl, by decide, ⟨fun _ h => by simp [withM9, slotValid, State.reset] at h,
    fun _ _ h => by simp [withM9, slotValid, State.reset] at h⟩⟩

/-! ## Decoding: words of R97 and of section 2.7 -/

theorem test_decode_nop : decode 0x00000000 = .ok .nop := by decide
theorem test_decode_tbuild : decode 0x00000021 = .ok (.tbuild 2) := by decide
theorem test_decode_tread : decode 0x0000FF92 = .ok (.tread 9 0xFF) := by decide
theorem test_decode_cinit : decode 0x00000043 = .ok (.cinit 4) := by decide
theorem test_decode_step : decode 0x00003194 = .ok (.step 9 0x31) := by decide
theorem test_decode_cfinal : decode 0x00000095 = .ok (.cfinal 9) := by decide
theorem test_decode_compute : decode 0x000000B6 = .ok (.compute 11) := by decide
theorem test_decode_sreset : decode 0x00000007 = .ok .sreset := by decide
theorem test_decode_reserved_op : decode 0x0000000F = .error .reservedOp := by decide
theorem test_decode_nop_with_vid : decode 0x00000010 = .error .unusedVid := by decide
theorem test_decode_sreset_with_imm : decode 0x00000107 = .error .unusedImm8 := by decide
theorem test_decode_tbuild_with_imm : decode 0x00000111 = .error .unusedImm8 := by decide
theorem test_decode_zero_field : decode 0x80000000 = .error .zeroField := by decide
theorem test_encode_words :
    encode (.tread 1 1) = 0x00000112 ∧ encode (.step 4 0x31) = 0x00003144 ∧ encode (.compute 9) = 0x00000096 := by decide
theorem test_decodeTableWord : decodeTableWord 32 0x0000FFB4 = some (.step 11 0xFF) ∧ decodeTableWord 32 0x000100F6 = none := by
  decide
theorem test_opcodeMap_rows_disjoint :
    opcodeMap.Pairwise fun r r' => r.pattern &&& (r.mask &&& r'.mask) ≠ r'.pattern &&& (r.mask &&& r'.mask) := by decide
theorem test_asm : asm (.step 9 0x31) = "STEP crc_32, #49" ∧ asm (.cinit 15) = "CINIT 15" := by decide +kernel

/-! ## Well-formedness: a refused term for each check -/

theorem test_wf_sick_width : ({ presetCrc8 with kind := .sick } : ParamSet).wf = false := by decide
theorem test_wf_sick_reflected : ({ presetCrc16 with kind := .sick } : ParamSet).wf = false := by decide
theorem test_wf_aw_zero : ({ Config.default with aw := 0 } : Config).wf = false := by decide +kernel
theorem test_wf_aw_large : ({ Config.default with aw := 65 } : Config).wf = false := by decide +kernel
theorem test_wf_no_presets : ({ Config.default with presets := [], enabled := [] } : Config).wf = false := by decide +kernel
theorem test_wf_many_presets : ({ Config.default with presets := List.replicate 17 presetCrc8 } : Config).wf = false := by
  decide +kernel
theorem test_wf_bad_preset :
    ({ Config.default with presets := [{ presetCrc8 with kind := .sick }], enabled := [0] } : Config).wf = false := by decide +kernel
theorem test_wf_enabled_range : ({ Config.default with enabled := [12] } : Config).wf = false := by decide +kernel
theorem test_wf_memErr_range : ({ Config.default with aw := 16, memErr := [0x10000] } : Config).wf = false := by decide +kernel
theorem test_wf_attested_value :
    ({ Config.default with presets := { presetCrc8 with polynomial := 0x9B } :: defaultPresets.tail } : Config).wf = false := by
  decide +kernel
theorem test_wf_attested_absent : ({ Config.default with presets := [presetCrc8], enabled := [0] } : Config).wf = false := by
  decide +kernel
theorem test_wf_tbuild_sick : (Instr.tbuild 8).wf Config.default = false ∧ (Instr.tbuild 15).wf Config.default = false := by
  decide +kernel
theorem test_wf_tread_sick : (Instr.tread 8 0x80).wf Config.default = false := by decide +kernel
theorem test_wf_cinit_no_preset : (Instr.cinit 15).wf Config.default = false := by decide +kernel
theorem test_wf_step_no_preset : (Instr.step 12 0).wf Config.default = false := by decide +kernel
theorem test_wf_cfinal_no_preset : (Instr.cfinal 13).wf Config.default = false := by decide +kernel
theorem test_wf_compute_disabled :
    (Instr.compute 9).wf { Config.default with enabled := [0, 1, 2, 3, 4, 5, 6, 7, 8, 10, 11] } = false := by decide +kernel

/-! ## The pure functions: R117, `96_derived_tables.md` and section 2 of `95_test_vectors.md` -/

theorem test_buildEntry_R117 : buildEntry presetXmodem.toKey 0x01 = 0x1021 ∧ buildEntry presetCrc16.toKey 0x01 = 0xC0C1 := by decide +kernel
theorem test_table_slot0 : tableAt presetCrc8.toKey 0xCE = 0x64 ∧ tableAt presetCrc8.toKey 0xFF = 0xF3 := by decide +kernel
theorem test_table_slot6 : tableAt presetCrc64We.toKey 0x31 = 0xE8B768EB18C8B8A2 := by decide +kernel
theorem test_table_other_key :
    tableAt { width := .w32, polynomial := 0x04C11DB7, reflectIn := false } 0x80 = 0x690CE0EE := by decide +kernel
theorem test_compute_modbus : compute presetModbus checkBuffer = 0x4B37 := by decide +kernel
theorem test_compute_dnp : compute presetDnp checkBuffer = 0xEA82 := by decide +kernel
theorem test_compute_64_we : compute presetCrc64We checkBuffer = 0x62EC59E3F1A4F00A := by decide +kernel
theorem test_compute_flags_differ :
    compute { presetCrc32 with reflectOut := false } checkBuffer = 0x649C2FD3
      ∧ compute ({ width := .w16, polynomial := 0xA001, init := 0x1D0F, reflectIn := true, reflectOut := false, xorout := 0,
                   kind := .table } : ParamSet) [] = 0xF0B8 := by decide +kernel
theorem test_compute_sick_suggested : computeSickWith Config.sickStepSuggested presetSick checkBuffer = 0xA656 := by decide +kernel
theorem test_nmea : checksumNmea checkBuffer = (0x33, 0x31) ∧ checksumNmea [0x0A] = (0x30, 0x41) ∧ checksumNmea [] = (0x30, 0x30) := by
  decide

/-! ## The commands: R115, R116, R151 to R153, R134, R170, R171 and section 2 of `95_test_vectors.md` -/

theorem test_nop_after_fault :
    statusWord (after (exec .nop { State.reset with err := 1, flt := true, einfo := 0x16 })) = 1 := by decide +kernel
theorem test_tbuild_status : statusWord (after (exec (.tbuild 1) State.reset)) = 0x20000 := by decide +kernel
theorem test_tbuild_sick_faults : statusWord (after (exec (.tbuild 8) State.reset)) = 0x13
    ∧ (after (exec (.tbuild 8) State.reset)).einfo = 0x81 := by decide +kernel
theorem test_tread_result : (after (exec (.tread 1 1) State.reset)).result = 0xC0C1 := by decide +kernel
theorem test_tread_shared_slot : (after (exec (.tread 2 0xFF) (after (exec (.tbuild 1) State.reset)))).result = 0x4040
    ∧ statusWord (after (exec (.tread 2 0xFF) State.reset)) = 0x20000 := by decide +kernel
theorem test_cinit_table_keeps_prev :
    (after (exec (.cinit 9) { State.reset with crc := 0x1122334455667788, prev := 0xAA })).crc = 0xFFFFFFFF
      ∧ (after (exec (.cinit 9) { State.reset with prev := 0xAA })).prev = 0xAA := by decide +kernel
theorem test_cinit_sick_clears_prev : (after (exec (.cinit 8) { State.reset with prev := 0xAA })).prev = 0 := by decide +kernel
theorem test_step_upper_bits :
    (after (exec (.step 4 0x31) { State.reset with crc := 0xDEADBEEF0000FFFF })).crc = 0xC782 := by decide +kernel
theorem test_step_reflected : (after (exec (.step 9 0xA5) { State.reset with crc := 0x123456789ABCDEF0 })).crc = 0x1B9B19A5 := by
  decide +kernel
theorem test_cfinal_crc_32 : (after (exec (.cfinal 9) { State.reset with crc := 0x340BC6D9 })).result = 0xCBF43926
    ∧ (after (exec (.cfinal 0) { State.reset with crc := 0x1F4 })).result = 0xF4 := by decide +kernel
theorem test_compute_crc_32 : (after (exec (.compute 9) withM9)).result = 0xCBF43926
    ∧ statusWord (after (exec (.compute 9) withM9)) = 0x200000 := by decide +kernel
theorem test_compute_bus_error : statusWord (after (exec (.compute 9) withHole)) = 0x200015
    ∧ (after (exec (.compute 9) withHole)).einfo = 0x1005 ∧ (after (exec (.compute 9) withHole)).result = 0 := by decide +kernel
theorem test_sreset_clears : statusWord (after (exec .sreset { nullFour with err := 1, flt := true, tvalid := 2 })) = 0
    ∧ (after (exec .sreset nullFour)).blen = 0 := by decide +kernel

/-! ## Faults and the host port: sections 2.8 and 2.9 of `95_test_vectors.md` -/

theorem test_null_buffer : statusWord (after (execWord 0x16 nullFour)) = 0x11 ∧ (after (execWord 0x16 nullFour)).einfo = 0x16 := by
  decide +kernel
theorem test_null_buffer_not_range :
    statusWord (after (execWord 0x96 { State.reset with blen := 0xFFFFFFFFFFFFFFFF })) = 0x11 := by decide +kernel
theorem test_range_aw16 :
    statusWord (after (execWord 0x06 { State.reset with baddr := 0xFFFF, blen := 2, cfg := { Config.default with aw := 16 } })) = 0x14
      ∧ statusWord (after (execWord 0x06 { State.reset with baddr := 0xFFFF, blen := 1, cfg := { Config.default with aw := 16 } }))
          = 0x10000 := by decide +kernel
theorem test_illegal_has_priority :
    statusWord (after (execWord 0x000100F6 State.reset)) = 0x12 ∧ statusWord (after (execWord 0xF6 nullFour)) = 0x13 := by
  decide +kernel
theorem test_second_fault : statusWord (after (execWord 0x08 (after (execWord 0x16 nullFour)))) = 0x11
    ∧ (after (execWord 0x08 (after (execWord 0x16 nullFour)))).einfo = 0x16 := by decide +kernel
theorem test_write_prev : (after (hostWrite .prev 0x1FF State.reset)).prev = 0xFF := by decide +kernel
theorem test_write_cmd_ignores_upper : (after (hostWrite .cmd 0xFFFFFFFF00000093 State.reset)).crc = 0xFFFFFFFF := by decide +kernel
theorem test_write_baddr_aw32 :
    (after (hostWrite .baddr 0x0000000100001000 { State.reset with cfg := { Config.default with aw := 32 } })).baddr = 0x1000 := by
  decide +kernel
theorem test_placed_word_runs : (after (step (State.reset.withFetchWord 32 0x112))).result = 0xC0C1 := by decide +kernel
theorem test_whole_buffer_run :
    (after (Host.Core.run Sys2Proof.core 5 { withM9 with pending := wholeBufferOp 7 0x1000 9 })).rdata = 0x2189 := by decide +kernel
theorem test_update_run :
    (after (Host.Core.run Sys2Proof.core 3 { State.reset with pending := updateOp 5 0x2672 0x32 })).rdata = 0x20B5 := by decide +kernel

/-! ## Witnesses: for each statement with hypotheses, a concrete case that meets them, clause by clause -/

/-- Slot 1 built. -/
def slot1Built : State := after (exec (.tbuild 1) State.reset)

/-- A fault on record: the null buffer's. -/
def faulted : State := after (execWord 0x16 nullFour)

/-- M9 with other entries in slots that are not valid. -/
def otherEntries : State := { withM9 with tent := Vector.replicate 16 (Vector.replicate 256 7) }

/-- M9 with a configuration of 16 address bits, at the top of the address space: one byte at 0xFFFF. -/
def topByteState : State :=
  { State.reset with baddr := 0xFFFF, blen := 1, cfg := { Config.default with aw := 16 } }

theorem otherEntries_inv : otherEntries.Inv :=
  ⟨test_default_wf, by decide, by decide, by decide, by decide, fun _ => rfl, by decide,
    ⟨fun _ h => by simp [otherEntries, withM9, slotValid, State.reset] at h,
      fun _ _ h => by simp [otherEntries, withM9, slotValid, State.reset] at h⟩⟩

theorem withM9_pending_inv (acts : List HostAction) : ({ withM9 with pending := acts } : State).Inv :=
  ⟨withM9_inv.cfg, withM9_inv.mem, withM9_inv.memRange, withM9_inv.baddr, withM9_inv.err, withM9_inv.einfo, withM9_inv.flt,
    withM9_inv.tables.congr rfl rfl rfl⟩

theorem withM9_empty_inv : ({ withM9 with baddr := 0, blen := 0 } : State).Inv :=
  ⟨withM9_inv.cfg, withM9_inv.mem, withM9_inv.memRange, by decide, withM9_inv.err, withM9_inv.einfo, withM9_inv.flt,
    withM9_inv.tables.congr rfl rfl rfl⟩

theorem withM9_holds : BufferAccepted withM9 ∧ BufferHolds withM9 checkBuffer :=
  ⟨(bufferAccepted_iff _).mpr (by decide +kernel), by decide +kernel, by decide +kernel⟩

theorem witness_DecodingFollowsTheOpcodeMap :
    (decode 0x00003194 = .ok (.step 9 0x31) ∧ (Instr.step 9 0x31).vid? = some 9 ∧ (Instr.step 9 0x31).imm? = some 0x31)
      ∧ (∃ row ∈ opcodeMap, (0x00003194 : CmdWord) &&& row.mask = row.pattern) ∧ decode 0x00013194 = .error .zeroField := by decide

theorem witness_FaultEntryRecordsTheFirstFault : State.reset.err = 0 ∧ faulted.err ≠ 0 := by decide +kernel

theorem witness_IllegalCommandExecutesNothing : decode 0x00000196 = .error .unusedImm8 := by decide

theorem witness_CommandWordIsOneTransition :
    decode 0x00000096 = .ok (.compute 9) ∧ decode 0x00000107 = .error .unusedImm8 := by decide

theorem witness_InvalidArgumentIsTheNullBuffer :
    (nullFour.cfg.variant? 1 = some presetCrc16 ∧ nullFour.baddr = 0 ∧ nullFour.blen ≠ 0)
      ∧ (State.reset.cfg.variant? 8 = some presetSick ∧ State.reset.baddr = 0 ∧ State.reset.blen = 0)
      ∧ ∃ t, execWord 0x16 nullFour = .next t ∧ nullFour.err = 0 ∧ t.err = 1 :=
  ⟨by decide +kernel, by decide +kernel, after (execWord 0x16 nullFour), next_after (by decide +kernel), rfl, by decide +kernel⟩

theorem witness_IllegalVariantFaults :
    ((Instr.cinit 15).vid? = some 15 ∧ State.reset.cfg.variant? 15 = none)
      ∧ ((Instr.tread 8 1).vid? = some 8 ∧ State.reset.cfg.variant? 8 = some presetSick ∧ presetSick.kind = .sick) := by decide +kernel

theorem witness_BufferRangeFaults :
    (∃ s : State, s.cfg.variant? 0 = some presetCrc8 ∧ (s.baddr = 0 → s.blen = 0) ∧ s.baddr.toNat + s.blen.toNat > 2 ^ s.cfg.aw)
      ∧ (∃ t, exec (.compute 0) topByteState = .next t) ∧ topByteState.err = 0
      ∧ topByteState.baddr.toNat + topByteState.blen.toNat ≤ 2 ^ topByteState.cfg.aw :=
  ⟨⟨{ topByteState with blen := 2 }, by decide +kernel⟩, exec_next _ _, by decide, by decide +kernel⟩

theorem witness_BusErrorAtTheLowestAddress :
    withHole.cfg.variant? 9 = some presetCrc32 ∧ withHole.cfg.variant? 8 = some presetSick ∧ BufferAccepted withHole
      ∧ 5 < withHole.blen.toNat ∧ memRead withHole (withHole.baddr.toNat + 5) = none
      ∧ ∀ i < 5, memRead withHole (withHole.baddr.toNat + i) ≠ none :=
  ⟨by decide +kernel, by decide +kernel, (bufferAccepted_iff _).mpr (by decide +kernel), by decide, by decide +kernel, by decide +kernel⟩

theorem witness_FaultPriority : withHole.err = 0 ∧ faultCode 0x00000096 withHole = 5 := by decide +kernel

theorem witness_FaultingCommandHasNoPartialResult :
    (∃ t, execWord 0x96 withHole = .next t ∧ t.flt = true ∧ withHole.err = 0 ∧ t.tvalid ≠ withHole.tvalid)
      ∧ ∃ t, execWord 0x08 faulted = .next t ∧ t.flt = true ∧ faulted.err ≠ 0 :=
  ⟨⟨after (execWord 0x96 withHole), next_after (by decide +kernel), by decide +kernel, rfl, by decide +kernel⟩,
    after (execWord 0x08 faulted), next_after (by decide +kernel), by decide +kernel, by decide +kernel⟩

theorem witness_FirstFaultIsSticky : (∃ t, execWord 0x00000008 faulted = .next t) ∧ faulted.err ≠ 0 ∧ decode 0x00000008 ≠ .ok .sreset :=
  ⟨execWord_next _ _, by decide +kernel, by decide⟩

theorem witness_SresetClearsTheBlock :
    (∃ t, execWord 0x00 faulted = .next t) ∧ decode 0x00 ≠ .ok .sreset ∧ faulted.err ≠ 0 ∧ slotValid slot1Built 1 = true :=
  ⟨execWord_next _ _, by decide, by decide +kernel, by decide +kernel⟩

theorem witness_SresetFrame : ∃ t, exec .sreset withM9 = .next t := exec_next _ _

theorem witness_table_commands :
    State.reset.cfg.tableVariant? 8 = none ∧ withM9.cfg.tableVariant? 1 = some presetCrc16
      ∧ slot1Built.cfg.tableVariant? 1 = some presetCrc16 ∧ slotValid slot1Built (slot1Built.cfg.tid presetCrc16) = true := by
  decide +kernel

theorem witness_TbuildEnsuresTheTable :
    State.reset.cfg.tableVariant? 15 = none ∧ slot1Built.cfg.tableVariant? 2 = some presetModbus
      ∧ slotValid slot1Built (slot1Built.cfg.tid presetModbus) = true := by decide +kernel

theorem witness_TreadReadsTheEntry :
    withM9.Inv ∧ withM9.cfg.tableVariant? 8 = none ∧ withM9.cfg.tableVariant? 11 = some presetCrc64We := ⟨withM9_inv, by decide +kernel⟩

theorem witness_CinitStartsAStream :
    State.reset.cfg.variant? 12 = none ∧ State.reset.cfg.variant? 8 = some presetSick ∧ State.reset.cfg.variant? 0 = some presetCrc8 := by
  decide +kernel

theorem witness_StepAdvancesTheRegister :
    withM9.cfg.variant? 15 = none ∧ (withM9.cfg.variant? 9 = some presetCrc32 ∧ presetCrc32.kind = .table ∧ withM9.Inv)
      ∧ withM9.cfg.variant? 8 = some presetSick ∧ presetSick.kind = .sick :=
  ⟨by decide +kernel, ⟨by decide +kernel, rfl, withM9_inv⟩, by decide +kernel, rfl⟩

theorem witness_CfinalFinalisesTheStream :
    State.reset.cfg.variant? 13 = none ∧ State.reset.cfg.variant? 6 = some presetDnp := by decide +kernel

theorem witness_ComputeFoldsTheBuffer :
    withM9.Inv ∧ withM9.cfg.variant? 9 = some presetCrc32 ∧ presetCrc32.kind = .table ∧ BufferAccepted withM9 ∧ BufferHolds withM9 checkBuffer :=
  ⟨withM9_inv, by decide +kernel, rfl, withM9_holds⟩

theorem witness_ComputeSickFoldsTheBuffer :
    withM9.cfg.variant? 8 = some presetSick ∧ presetSick.kind = .sick ∧ BufferAccepted withM9 ∧ BufferHolds withM9 checkBuffer :=
  ⟨by decide +kernel, rfl, withM9_holds⟩

theorem witness_EmptyBufferGivesInit :
    ({ withM9 with baddr := 0, blen := 0 } : State).Inv ∧ withM9.cfg.variant? 2 = some presetModbus
      ∧ withM9.cfg.variant? 8 = some presetSick := ⟨withM9_empty_inv, by decide +kernel⟩

theorem witness_ComputeLeavesTheStream : ∃ t, exec (.compute 7) withM9 = .next t := exec_next _ _

theorem witness_ComputeIsDeterministic :
    withM9.Inv ∧ otherEntries.Inv ∧ withM9.cfg.variant? 9 = some presetCrc32 ∧ otherEntries.cfg.variant? 9 = some presetCrc32
      ∧ BufferAccepted withM9 ∧ BufferAccepted otherEntries ∧ BufferHolds withM9 checkBuffer ∧ BufferHolds otherEntries checkBuffer :=
  ⟨withM9_inv, otherEntries_inv, by decide +kernel, by decide +kernel, withM9_holds.1, (bufferAccepted_iff _).mpr (by decide +kernel),
    withM9_holds.2, by decide +kernel, by decide +kernel⟩

theorem witness_MemoryIsNeverWritten : ∃ t, execWord 0x00000096 withM9 = .next t := execWord_next _ _

theorem witness_RegisterWriters :
    (∃ t, exec (.step 8 1) withM9 = .next t ∧ Instr.step 8 1 ≠ .sreset ∧ t.prev ≠ withM9.prev)
      ∧ (∃ t, exec (.cinit 9) withM9 = .next t ∧ t.crc ≠ withM9.crc)
      ∧ (∃ t, exec (.compute 9) withM9 = .next t ∧ t.result ≠ withM9.result ∧ t.tvalid ≠ withM9.tvalid)
      ∧ ∃ t, exec (.compute 9) withHole = .next t ∧ t.err ≠ withHole.err ∧ t.einfo ≠ withHole.einfo :=
  ⟨⟨after (exec (.step 8 1) withM9), next_after (by decide +kernel), by decide, by decide +kernel⟩,
    ⟨after (exec (.cinit 9) withM9), next_after (by decide +kernel), by decide +kernel⟩,
    ⟨after (exec (.compute 9) withM9), next_after (by decide +kernel), by decide +kernel, by decide +kernel⟩,
    after (exec (.compute 9) withHole), next_after (by decide +kernel), by decide +kernel, by decide +kernel⟩

theorem witness_UpperCrcBitsAreIgnored :
    withM9.Inv ∧ withM9.cfg.variant? 4 = some presetCcittFfff ∧ withM9.cfg.variant? 8 = some presetSick
      ∧ (0xDEADBEEF00000000 : Word).setWidth presetCcittFfff.W = withM9.crc.setWidth presetCcittFfff.W := ⟨withM9_inv, by decide +kernel⟩

/-- The register sequence of R110 and R111 from a seed. -/
def bitSequence (k : Key) (r0 : BitVec k.W) : Nat → BitVec k.W
  | 0 => r0
  | n + 1 => bitStep k (bitSequence k r0 n)

theorem witness_BuildEntryNonReflected :
    presetXmodem.reflectIn = false ∧ ∃ r : Nat → BitVec presetXmodem.toKey.W,
      r 0 = (0x01 : Byte).setWidth presetXmodem.toKey.W <<< (presetXmodem.toKey.W - 8)
        ∧ ∀ n, r (n + 1) =
            if (r n).getLsbD (presetXmodem.toKey.W - 1) then (r n <<< 1) ^^^ presetXmodem.toKey.polynomial else r n <<< 1 :=
  ⟨rfl, bitSequence presetXmodem.toKey ((0x01 : Byte).setWidth _ <<< (presetXmodem.toKey.W - 8)), rfl, fun _ => rfl⟩

theorem witness_BuildEntryReflected :
    presetCrc16.reflectIn = true ∧ ∃ r : Nat → BitVec presetCrc16.toKey.W,
      r 0 = (0x01 : Byte).setWidth presetCrc16.toKey.W
        ∧ ∀ n, r (n + 1) = if (r n).getLsbD 0 then (r n >>> 1) ^^^ presetCrc16.toKey.polynomial else r n >>> 1 :=
  ⟨rfl, bitSequence presetCrc16.toKey ((0x01 : Byte).setWidth _), rfl, fun _ => rfl⟩

theorem witness_TableLaws : presetCrc8.toKey.reflectIn = false ∧ presetCrc32.toKey.reflectIn = true := by decide

theorem witness_FoldByteOfBothConventions :
    presetCrc8.toKey.reflectIn = false ∧ presetCrc8.toKey.width = .w8 ∧ presetCrc32.toKey.reflectIn = true := by decide

theorem witness_FinalizeBitByBit :
    31 < presetCrc32.W ∧ presetCrc32.reflectOut = presetCrc32.reflectIn
      ∧ ({ presetCrc32 with reflectOut := false } : ParamSet).reflectOut ≠ presetCrc32.reflectIn := by decide

theorem witness_AttestedCheckValues :
    Config.default.wf = true ∧ withM9.Inv
      ∧ (∀ vx ∈ [(0#4, 0xF4), (1#4, 0xBB3D), (9#4, 0xCBF43926), (4#4, 0x29B1), (5#4, 0x31C3), (7#4, 0x2189)],
          (vx.1.toNat, vx.2) ∈ attestedValues ∧ vx.1.toNat ∈ withM9.cfg.enabled)
      ∧ BufferAccepted withM9 ∧ BufferHolds withM9 checkBuffer :=
  ⟨test_default_wf, withM9_inv, by decide, withM9_holds⟩

theorem witness_NmeaIsOrderIndependent : [0x47, 0x50, 0x47].Perm ([0x50, 0x47, 0x47] : List Byte) := by decide

theorem witness_EnsureTableBuildsOnce :
    (6 < 16 ∧ withM9.cfg.keys[6]? = some presetCrc64We.toKey) ∧ slotValid slot1Built 1 = true
      ∧ ∃ t, exec (.tread 1 0) withM9 = .next t ∧ t.tvalid ≠ withM9.tvalid :=
  ⟨by decide +kernel, by decide +kernel, after (exec (.tread 1 0) withM9), next_after (by decide +kernel), by decide +kernel⟩

theorem witness_ValidSlotIsNeverRebuilt :
    (∃ t, execWord 0x00000021 slot1Built = .next t) ∧ decode 0x00000021 ≠ .ok .sreset ∧ slotValid slot1Built 1 = true :=
  ⟨execWord_next _ _, by decide, by decide +kernel⟩

theorem witness_TableStoreAffectsNoResult : withM9.Inv ∧ otherEntries.Inv ∧ SameButTableStore withM9 otherEntries :=
  ⟨withM9_inv, otherEntries_inv, rfl⟩

theorem witness_InvalidEntriesAreUnobservable :
    withM9.Inv ∧ otherEntries.Inv ∧ SameButEntries withM9 otherEntries ∧ ∃ t, step withM9 = .next t :=
  ⟨withM9_inv, otherEntries_inv, rfl, _, rfl⟩

theorem witness_IncrementalEquivalence :
    withM9.Inv ∧ withM9.cfg.variant? 4 = some presetCcittFfff ∧ withM9.cfg.variant? 8 = some presetSick ∧ BufferAccepted withM9
      ∧ BufferHolds withM9 checkBuffer := ⟨withM9_inv, by decide +kernel, by decide +kernel, withM9_holds⟩

theorem witness_StreamIsUndisturbed :
    withM9.Inv ∧ (∃ t, exec (.compute 7) withM9 = .next t) ∧ ∃ u, exec (.step 5 0x36) withM9 = .next u :=
  ⟨withM9_inv, exec_next _ _, exec_next _ _⟩

theorem witness_StepDependsOnTheKeyAlone :
    withM9.cfg.tableVariant? 1 = some presetCrc16 ∧ withM9.cfg.tableVariant? 2 = some presetModbus
      ∧ presetCrc16.toKey = presetModbus.toKey ∧ presetCrc16 ≠ presetModbus := by decide +kernel

theorem witness_HostReadValues : withM9.Inv := withM9_inv

theorem witness_StatusFields : withM9.Inv ∧ withM9.cfg.ntab ≤ 7 ∧ slotValid slot1Built 1 = true := ⟨withM9_inv, by decide +kernel⟩

theorem witness_PlatformWriteIsRead :
    withM9.Inv ∧ (0x2000 : Word).toNat < 2 ^ withM9.cfg.aw
      ∧ 2 ^ topByteState.cfg.aw ≤ (0x10000 : Word).toNat ∧ topByteState.cfg.wf = true := ⟨withM9_inv, by decide +kernel⟩

theorem witness_WholeBufferOperation :
    ({ withM9 with pending := wholeBufferOp 9 0x1000 9 ++ [] } : State).Inv ∧ withM9.cfg.variant? 9 = some presetCrc32
      ∧ (0x1000 : Word).toNat < 2 ^ withM9.cfg.aw ∧ ((0x1000 : Word) = 0 → (9 : Word) = 0)
      ∧ (0x1000 : Word).toNat + (9 : Word).toNat ≤ 2 ^ withM9.cfg.aw ∧ checkBuffer.length = (9 : Word).toNat
      ∧ ∀ i (h : i < checkBuffer.length), memRead withM9 ((0x1000 : Word).toNat + i) = some checkBuffer[i] :=
  ⟨withM9_pending_inv _, by decide +kernel⟩

theorem witness_IncrementalOperations :
    ({ withM9 with pending := updateOp 9 0x641C1F5C 0x35 ++ [] } : State).Inv ∧ withM9.cfg.variant? 9 = some presetCrc32
      ∧ presetCrc32.kind = .table ∧ ({ withM9 with pending := updateSickOp 8 0x3150 0x33 0x32 ++ [] } : State).Inv
      ∧ withM9.cfg.variant? 8 = some presetSick ∧ presetSick.kind = .sick :=
  ⟨withM9_pending_inv _, by decide +kernel, rfl, withM9_pending_inv _, by decide +kernel, rfl⟩

theorem witness_StepRunsTheDecodedCommand :
    ({ withM9 with pending := [issue (.compute 9)] } : State).pending = .write .cmd 0x96 :: []
      ∧ decode ((0x96 : Word).setWidth 32) = .ok (.compute 9) ∧ withM9.pending = [] := by decide +kernel

theorem witness_ActionsTakeEffectInOrder :
    ({ withM9 with pending := [.write .crc 5, .read .crc] } : State).pending = .write .crc 5 :: [.read .crc]
      ∧ ∃ t, step { withM9 with pending := [.write .crc 5, .read .crc] } = .next t := ⟨rfl, _, rfl⟩

theorem witness_ConfigurationNeverChanges : ∃ t, step { withM9 with pending := [issue .nop] } = .next t := ⟨_, rfl⟩

theorem witness_ResetValues : (∃ t, hostAct .reset withM9 = .next t) ∧ ∃ t, exec .sreset withM9 = .next t :=
  ⟨⟨_, rfl⟩, exec_next _ _⟩

theorem witness_EveryStepKeepsTheInvariant :
    ({ withM9 with pending := [.write .crc 5] } : State).Inv ∧ ∃ t, step { withM9 with pending := [.write .crc 5] } = .next t :=
  ⟨withM9_pending_inv _, _, rfl⟩

/-- A fault and then SRESET, and the same fault and then NOP. -/
def erasingRun : List HostAction := [.write .cmd 0x08, .write .cmd 0x07]
def keepingRun : List HostAction := [.write .cmd 0x08, .write .cmd 0x00]

theorem test_erasing_run :
    (after (runActions erasingRun State.reset)).err = 0 ∧ faultErased State.reset erasingRun = true ∧ WentWrong State.reset erasingRun :=
  have hf : faultErased State.reset erasingRun = true := by decide +kernel
  ⟨by decide +kernel, hf, _, next_after (by decide +kernel), .inr hf⟩

theorem test_clean_run : ¬ WentWrong State.reset [.write .cmd 0x13, .write .cmd 0x07] := by
  rintro ⟨t, ht, h⟩
  rw [next_after (o := runActions _ _) (by decide +kernel)] at ht
  injection ht with ht
  rcases h with h | h
  · exact h (by rw [← ht]; decide +kernel)
  · exact absurd h (by decide +kernel)

theorem witness_RunsThatWentWrong :
    (∃ t, runActions keepingRun State.reset = .next t ∧ t.err ≠ 0) ∧ faultErased State.reset keepingRun = false
      ∧ State.reset.err = 0 ∧ keepingRun = [] ++ .write .cmd 0x08 :: [.write .cmd 0x00]
      ∧ actionFaults State.reset (.write .cmd 0x08) = true :=
  ⟨⟨_, next_after (by decide +kernel), by decide +kernel⟩, by decide +kernel, rfl, rfl, by decide +kernel⟩

end Sys2Proof.Tests
end

namespace Sys2Proof

theorem Key.W_le_64 (k : Key) : k.W ≤ 64 := by
  cases h : k.width <;> simp [Key.W, h, Width.bits]

/-- An enabled variant that R55 attests is one of kind `table` whose `compute` over `M9` is the attested value. -/
theorem Config.variant?_eq_some_of_attested {c : Config} {vid : BitVec 4} {x : Nat} (hc : c.wf = true)
    (hx : (vid.toNat, x) ∈ Machine.attestedValues) (hv : vid.toNat ∈ c.enabled) :
    ∃ P, c.variant? vid = some P ∧ P.kind = .table ∧ (Machine.compute P Machine.checkBuffer).toNat = x := by
  obtain ⟨P, hP, hk, hval⟩ := Config.attestedChecks hc _ hx
  exact ⟨P, Config.variant?_eq_some.mpr ⟨hv, hP⟩, hk, hval⟩

end Sys2Proof

namespace Sys2Proof.Machine

/-- COMPUTE of a `table`-kind variant over an accepted buffer that can be read completes with `compute` of its bytes (R134):
in a right store the slot it reads holds the table `compute` folds with (R31). -/
theorem exec_compute_of_bufferHolds {s : State} {vid : BitVec 4} {P : ParamSet} {B : List Byte} (hs : TablesRight s)
    (h : s.cfg.variant? vid = some P) (hk : P.kind = .table) (ha : BufferAccepted s) (hB : BufferHolds s B) :
    exec (.compute vid) s = .next (complete (writeResult (ensureTable s (s.cfg.tid P)) (compute P B))) := by
  obtain ⟨hn, hr⟩ := (bufferAccepted_iff s).mp ha
  have hread : BufferHolds (ensureTable s (s.cfg.tid P)) B := by simpa [BufferHolds] using hB
  rw [exec_compute_table h hn hr hk, foldInto_ok ((bufferHolds_iff _ B).mp hread), hs.slotTable h hk, compute]

/-- `RESULT` holds a result of a Parameter Set's width without loss (R26). -/
theorem toNat_toWidth_64 (k : Key) (v : BitVec k.W) : (toWidth 64 v).toNat = v.toNat :=
  BitVec.toNat_setWidth_of_le k.W_le_64

/-- The default ROM's six check values, each by running `compute` over `M9` (R53, R55). -/
theorem attestedChecks_defaultPresets : AttestedChecks defaultPresets := by decide +kernel

/-- Settles O37: a configuration's ROM meets the values by R55 in its well-formedness, and COMPUTE gives `compute` of the nine
bytes, whose value `RESULT` is wide enough to hold. -/
theorem attestedCheckValues : Obligations.AttestedCheckValues := by
  refine ⟨attestedChecks_defaultPresets, fun c hc => Config.attestedChecks hc, ?_⟩
  intro s vid x hs hx hv ha hB
  obtain ⟨P, hP, hk, hval⟩ := Config.variant?_eq_some_of_attested hs.cfg hx hv
  have hresult : (toWidth 64 (compute P checkBuffer)).toNat = x := (toNat_toWidth_64 P.toKey _).trans hval
  exact ⟨_, exec_compute_of_bufferHolds hs.tables hP hk ha hB, rfl, hresult⟩

end Sys2Proof.Machine

namespace Sys2Proof.Machine

/-! ## Command words -/

theorem execWord_ok {w : CmdWord} {i : Instr} (h : decode w = .ok i) (s : State) : execWord w s = exec i s := by
  simp only [execWord, h]

theorem execWord_error {w : CmdWord} {e : Illegal} (h : decode w = .error e) (s : State) :
    execWord w s = .next (raise s .illegalCommand (toWidth 64 w)) := by
  simp only [execWord, h]

/-! ## Two runs that differ in the table store alone (R32, R136) -/

/-- Two outcomes of one form: next states related by `R`, or the same reason to stop. -/
def MatchedBy (R : State → State → Prop) :
    Host.Outcome State Fault Refusal → Host.Outcome State Fault Refusal → Prop
  | .next t, .next t' => R t t'
  | .fault f, .fault f' => f = f'
  | .refused r, .refused r' => r = r'
  | _, _ => False

theorem MatchedBy.of_next {R : State → State → Prop} {o : Host.Outcome State Fault Refusal} {t : State}
    (h : MatchedBy R (.next t) o) : ∃ t', o = .next t' ∧ R t t' := by
  cases o with
  | next t' => exact ⟨t', rfl, h⟩
  | fault f => exact h.elim
  | refused r => exact h.elim

theorem MatchedBy.of_fault {R : State → State → Prop} {o : Host.Outcome State Fault Refusal} {f : Fault}
    (h : MatchedBy R (.fault f) o) : o = .fault f := by
  cases o with
  | next t' => exact h.elim
  | fault f' => exact congrArg _ (Eq.symm h)
  | refused r => exact h.elim

/-- The two states differ in the table store at most and, where `validAlike` holds, not in its valid bits. One relation
serves both claims: `SameButTableStore` is the case `False` and `SameButEntries` the case `True`. -/
def AgreeOutsideStore (validAlike : Prop) (s s' : State) : Prop :=
  ∃ v e, s' = { s with tvalid := v, tent := e } ∧ (validAlike → v = s.tvalid)

theorem sameButTableStore_iff {s s' : State} : SameButTableStore s s' ↔ AgreeOutsideStore False s s' := by
  constructor
  · intro h
    exact ⟨_, _, h, False.elim⟩
  · rintro ⟨v, e, rfl, -⟩
    rfl

theorem sameButEntries_iff {s s' : State} : SameButEntries s s' ↔ AgreeOutsideStore True s s' := by
  constructor
  · intro h
    exact ⟨s.tvalid, _, h, fun _ => rfl⟩
  · rintro ⟨v, e, rfl, hv⟩
    obtain rfl := hv trivial
    rfl

/-- The valid bits after `ensure_table` are a function of those before and of the configuration (R114). -/
theorem ensureTable_tvalid_congr {s s' : State} (hc : s'.cfg = s.cfg) (hv : s'.tvalid = s.tvalid) (n : Nat) :
    (ensureTable s' n).tvalid = (ensureTable s n).tvalid := by
  unfold ensureTable slotValid
  rw [hc, hv]
  split
  · exact hv
  · split
    · simp only [fillSlot_tvalid, hv]
    · exact hv

namespace AgreeOutsideStore

variable {p : Prop} {s s' : State}

theorem cfg (h : AgreeOutsideStore p s s') : s'.cfg = s.cfg := by
  obtain ⟨v, e, rfl, -⟩ := h
  rfl

theorem pending (h : AgreeOutsideStore p s s') : s'.pending = s.pending := by
  obtain ⟨v, e, rfl, -⟩ := h
  rfl

theorem prev (h : AgreeOutsideStore p s s') : s'.prev = s.prev := by
  obtain ⟨v, e, rfl, -⟩ := h
  rfl

theorem readCrc_eq (h : AgreeOutsideStore p s s') (w : Nat) : readCrc s' w = readCrc s w := by
  obtain ⟨v, e, rfl, -⟩ := h
  rfl

theorem nullBuffer_eq (h : AgreeOutsideStore p s s') : nullBuffer s' = nullBuffer s := by
  obtain ⟨v, e, rfl, -⟩ := h
  rfl

theorem bufferPastTop_eq (h : AgreeOutsideStore p s s') : bufferPastTop s' = bufferPastTop s := by
  obtain ⟨v, e, rfl, -⟩ := h
  rfl

theorem readBuffer_eq (h : AgreeOutsideStore p s s') :
    readBuffer s' (bufAddr s') (bufLen s') = readBuffer s (bufAddr s) (bufLen s) := by
  obtain ⟨v, e, rfl, -⟩ := h
  exact readBuffer_congr (s := { s with tvalid := v, tent := e }) (t := s) (fun _ => rfl) _ _

/-- Host reads show the valid bits (`STATUS`) and no entry. -/
theorem hostRead_eq (h : AgreeOutsideStore True s s') (r : Reg) : hostRead s' r = hostRead s r := by
  obtain ⟨v, e, rfl, hv⟩ := h
  obtain rfl := hv trivial
  cases r <;> rfl

theorem map_writeCrc (h : AgreeOutsideStore p s s') {w : Nat} (x : BitVec w) :
    AgreeOutsideStore p (writeCrc s x) (writeCrc s' x) := by
  obtain ⟨v, e, rfl, hv⟩ := h
  exact ⟨v, e, rfl, hv⟩

theorem map_writePrev (h : AgreeOutsideStore p s s') (c : Byte) :
    AgreeOutsideStore p (writePrev s c) (writePrev s' c) := by
  obtain ⟨v, e, rfl, hv⟩ := h
  exact ⟨v, e, rfl, hv⟩

theorem map_writeBaddr (h : AgreeOutsideStore p s s') (x : Word) :
    AgreeOutsideStore p (writeBaddr s x) (writeBaddr s' x) := by
  obtain ⟨v, e, rfl, hv⟩ := h
  exact ⟨v, e, rfl, hv⟩

theorem map_writeBlen (h : AgreeOutsideStore p s s') (x : Word) :
    AgreeOutsideStore p (writeBlen s x) (writeBlen s' x) := by
  obtain ⟨v, e, rfl, hv⟩ := h
  exact ⟨v, e, rfl, hv⟩

theorem map_writeResult (h : AgreeOutsideStore p s s') {w : Nat} (x : BitVec w) :
    AgreeOutsideStore p (writeResult s x) (writeResult s' x) := by
  obtain ⟨v, e, rfl, hv⟩ := h
  exact ⟨v, e, rfl, hv⟩

theorem map_complete (h : AgreeOutsideStore p s s') : AgreeOutsideStore p (complete s) (complete s') := by
  obtain ⟨v, e, rfl, hv⟩ := h
  exact ⟨v, e, rfl, hv⟩

theorem map_raise (h : AgreeOutsideStore p s s') (f : BlockFault) (info : Word) :
    AgreeOutsideStore p (raise s f info) (raise s' f info) := by
  obtain ⟨v, e, rfl, hv⟩ := h
  exact ⟨v, e, rfl, hv⟩

theorem map_resetBlock (h : AgreeOutsideStore p s s') : AgreeOutsideStore p (resetBlock s) (resetBlock s') := by
  obtain ⟨v, e, rfl, -⟩ := h
  exact ⟨_, _, rfl, fun _ => rfl⟩

theorem map_pending (h : AgreeOutsideStore p s s') (acts : List HostAction) :
    AgreeOutsideStore p { s with pending := acts } { s' with pending := acts } := by
  obtain ⟨v, e, rfl, hv⟩ := h
  exact ⟨v, e, rfl, hv⟩

theorem map_rdata (h : AgreeOutsideStore p s s') (x : Word) :
    AgreeOutsideStore p { s with rdata := x } { s' with rdata := x } := by
  obtain ⟨v, e, rfl, hv⟩ := h
  exact ⟨v, e, rfl, hv⟩

theorem platformWrite_matched (h : AgreeOutsideStore p s s') (a : Word) (b : Byte) :
    MatchedBy (AgreeOutsideStore p) (platformWrite a b s) (platformWrite a b s') := by
  obtain ⟨v, e, rfl, hv⟩ := h
  simp only [platformWrite]
  split
  · exact ⟨v, e, rfl, hv⟩
  · exact rfl

theorem map_ensureTable (h : AgreeOutsideStore p s s') (n : Nat) :
    AgreeOutsideStore p (ensureTable s n) (ensureTable s' n) := by
  refine ⟨(ensureTable s' n).tvalid, (ensureTable s' n).tent, ?_, fun hp => ?_⟩
  · obtain ⟨v, e, rfl, -⟩ := h
    rw [ensureTable_frame s n]
    exact ensureTable_frame _ n
  · refine ensureTable_tvalid_congr h.cfg ?_ n
    obtain ⟨v, e, rfl, hv⟩ := h
    exact hv hp

theorem map_foldInto (h : AgreeOutsideStore p s s') {w : Nat} (f : List Byte → BitVec w) :
    AgreeOutsideStore p (foldInto s f) (foldInto s' f) := by
  cases hr : readBuffer s (bufAddr s) (bufLen s) with
  | ok B =>
    rw [foldInto_ok hr, foldInto_ok (h.readBuffer_eq.trans hr)]
    exact (h.map_writeResult _).map_complete
  | error a =>
    rw [foldInto_error hr, foldInto_error (h.readBuffer_eq.trans hr)]
    exact h.map_raise _ _

/-- From two right stores a command reads one and the same table, the variant's `build_table`, whichever slots were valid;
so all it writes outside the store is the same. -/
theorem exec_matched (h : AgreeOutsideStore p s s') (hs : TablesRight s) (hs' : TablesRight s') (i : Instr) :
    MatchedBy (AgreeOutsideStore p) (exec i s) (exec i s') := by
  have hc := h.cfg
  cases i with
  | nop => exact h.map_complete
  | sreset => exact h.map_resetBlock
  | tbuild vid =>
    cases hP : s.cfg.tableVariant? vid with
    | none =>
      rw [exec_tbuild_none hP, exec_tbuild_none (hc ▸ hP)]
      exact h.map_raise _ _
    | some P =>
      rw [exec_tbuild_some hP, exec_tbuild_some (hc ▸ hP), hc]
      exact (h.map_ensureTable _).map_complete
  | tread vid index =>
    cases hP : s.cfg.tableVariant? vid with
    | none =>
      rw [exec_tread_none hP, exec_tread_none (hc ▸ hP)]
      exact h.map_raise _ _
    | some P =>
      obtain ⟨hv, hk⟩ := Config.tableVariant?_eq_some.mp hP
      rw [exec_tread_some hP, exec_tread_some (hc ▸ hP), hs.slotTable hv hk, hs'.slotTable (hc ▸ hv) hk, hc]
      exact ((h.map_ensureTable _).map_writeResult _).map_complete
  | cinit vid =>
    cases hP : s.cfg.variant? vid with
    | none =>
      rw [exec_cinit_none hP, exec_cinit_none (hc ▸ hP)]
      exact h.map_raise _ _
    | some P =>
      cases hk : P.kind with
      | table =>
        rw [exec_cinit_table hP hk, exec_cinit_table (hc ▸ hP) hk]
        exact (h.map_writeCrc _).map_complete
      | sick =>
        rw [exec_cinit_sick hP hk, exec_cinit_sick (hc ▸ hP) hk]
        exact ((h.map_writeCrc _).map_writePrev _).map_complete
  | step vid c =>
    cases hP : s.cfg.variant? vid with
    | none =>
      rw [exec_step_none hP, exec_step_none (hc ▸ hP)]
      exact h.map_raise _ _
    | some P =>
      cases hk : P.kind with
      | table =>
        rw [exec_step_table hP hk, exec_step_table (hc ▸ hP) hk, hs.slotTable hP hk, hs'.slotTable (hc ▸ hP) hk, hc,
          h.readCrc_eq]
        exact ((h.map_ensureTable _).map_writeCrc _).map_complete
      | sick =>
        rw [exec_step_sick hP hk, exec_step_sick (hc ▸ hP) hk, h.readCrc_eq, h.prev]
        exact ((h.map_writeCrc _).map_writePrev _).map_complete
  | cfinal vid =>
    cases hP : s.cfg.variant? vid with
    | none =>
      rw [exec_cfinal_none hP, exec_cfinal_none (hc ▸ hP)]
      exact h.map_raise _ _
    | some P =>
      rw [exec_cfinal_some hP, exec_cfinal_some (hc ▸ hP), h.readCrc_eq]
      exact (h.map_writeResult _).map_complete
  | compute vid =>
    cases hP : s.cfg.variant? vid with
    | none =>
      rw [exec_compute_none hP, exec_compute_none (hc ▸ hP)]
      exact h.map_raise _ _
    | some P =>
      cases hn : nullBuffer s with
      | true =>
        rw [exec_compute_null hP hn, exec_compute_null (hc ▸ hP) (h.nullBuffer_eq.trans hn)]
        exact h.map_raise _ _
      | false =>
        have hn' := h.nullBuffer_eq.trans hn
        cases hr : bufferPastTop s with
        | true =>
          rw [exec_compute_range hP hn hr, exec_compute_range (hc ▸ hP) hn' (h.bufferPastTop_eq.trans hr)]
          exact h.map_raise _ _
        | false =>
          have hr' := h.bufferPastTop_eq.trans hr
          cases hk : P.kind with
          | table =>
            rw [exec_compute_table hP hn hr hk, exec_compute_table (hc ▸ hP) hn' hr' hk, hs.slotTable hP hk,
              hs'.slotTable (hc ▸ hP) hk, hc]
            exact (h.map_ensureTable _).map_foldInto _
          | sick =>
            rw [exec_compute_sick hP hn hr hk, exec_compute_sick (hc ▸ hP) hn' hr' hk]
            exact h.map_foldInto _

theorem execWord_matched (h : AgreeOutsideStore p s s') (hs : TablesRight s) (hs' : TablesRight s') (w : CmdWord) :
    MatchedBy (AgreeOutsideStore p) (execWord w s) (execWord w s') := by
  cases hw : decode w with
  | ok i =>
    rw [execWord_ok hw, execWord_ok hw]
    exact h.exec_matched hs hs' i
  | error e =>
    rw [execWord_error hw, execWord_error hw]
    exact h.map_raise _ _

/-- Where the valid bits agree, a host action, a read among them, tells the two states apart in nothing. -/
theorem hostAct_matched (h : AgreeOutsideStore True s s') (hs : TablesRight s) (hs' : TablesRight s') (act : HostAction) :
    MatchedBy (AgreeOutsideStore True) (hostAct act s) (hostAct act s') := by
  cases act with
  | read r =>
    simp only [hostAct, h.hostRead_eq]
    exact h.map_rdata _
  | reset => exact h.map_resetBlock
  | memWrite a b => exact h.platformWrite_matched a b
  | write r v =>
    cases r with
    | cmd => exact h.execWord_matched hs hs' _
    | crc => exact h.map_writeCrc v
    | prev => exact h.map_writePrev _
    | baddr => exact h.map_writeBaddr v
    | blen => exact h.map_writeBlen v
    | result => exact h
    | status => exact h
    | einfo => exact h

theorem step_matched (h : AgreeOutsideStore True s s') (hs : TablesRight s) (hs' : TablesRight s') :
    MatchedBy (AgreeOutsideStore True) (step s) (step s') := by
  simp only [step, nextAction, h.pending]
  split
  · exact h
  · next act rest _ =>
    exact (h.map_pending rest).hostAct_matched (hs.congr rfl rfl rfl) (hs'.congr rfl rfl rfl) act

end AgreeOutsideStore

/-- Settles O42: the relation "differ in the store alone" is kept by every named update, and a right store gives every
command the same table. -/
theorem tableStoreAffectsNoResult : Obligations.TableStoreAffectsNoResult := by
  intro w s s' hs hs' h
  obtain ⟨t, ht⟩ := execWord_next w s
  have hm := (sameButTableStore_iff.mp h).execWord_matched hs.tables hs'.tables w
  rw [ht] at hm
  obtain ⟨t', ht', hR⟩ := hm.of_next
  exact ⟨t, t', ht, ht', sameButTableStore_iff.mpr hR⟩

/-- Settles O43: the same relation with equal valid bits is kept by every step, host reads among them. -/
theorem invalidEntriesAreUnobservable : Obligations.InvalidEntriesAreUnobservable := by
  intro s s' hs hs' h
  have hm := (sameButEntries_iff.mp h).step_matched hs.tables hs'.tables
  constructor
  · intro t ht
    rw [ht] at hm
    obtain ⟨t', ht', hR⟩ := hm.of_next
    exact ⟨t', ht', sameButEntries_iff.mpr hR⟩
  · intro f hf
    rw [hf] at hm
    exact hm.of_fault

end Sys2Proof.Machine

namespace Sys2Proof.Machine

/-- A value of `w` bits stays below `2^w` at any other width. -/
theorem toNat_toWidth_lt {w : Nat} (n : Nat) (v : BitVec w) : (toWidth n v).toNat < 2 ^ w := by
  rw [toWidth, BitVec.toNat_setWidth]
  exact (Nat.mod_le _ _).trans_lt v.isLt

/-! ## The invariant, update by update (R24, R28 to R31, R201) -/

theorem BlockFault.code_bounds (f : BlockFault) : f.code ≠ 0 ∧ f.code.toNat ≤ 5 := by
  cases f <;> decide

/-- The invariant reads no more of the state than the configuration, memory, `BADDR`, the fault record and the store. -/
theorem State.Inv.congr {s t : State} (hs : s.Inv) (hcfg : t.cfg = s.cfg) (hmem : t.mem = s.mem) (hbaddr : t.baddr = s.baddr)
    (herr : t.err = s.err) (heinfo : t.einfo = s.einfo) (hflt : t.flt = true → s.flt = true) (htables : TablesRight t) :
    t.Inv where
  cfg := hcfg ▸ hs.cfg
  mem := hmem ▸ hs.mem
  memRange := by
    rw [hmem, hcfg]
    exact hs.memRange
  baddr := by
    rw [hbaddr, hcfg]
    exact hs.baddr
  err := herr ▸ hs.err
  einfo := by
    rw [herr, heinfo]
    exact hs.einfo
  flt h := herr ▸ hs.flt (hflt h)
  tables := htables

namespace State.Inv

variable {s t : State}

theorem map_ensureTable (hs : s.Inv) {vid : BitVec 4} {P : ParamSet} (h : s.cfg.variant? vid = some P) (hk : P.kind = .table) :
    (ensureTable s (s.cfg.tid P)).Inv :=
  hs.congr (by simp) (by simp) (by simp) (by simp) (by simp) (by simp)
    (hs.tables.ensureTable (Config.tid_lt h hk) (Config.keys_tid h hk))

theorem map_raise (hs : s.Inv) (f : BlockFault) (info : Word) : (raise s f info).Inv where
  cfg := hs.cfg
  mem := hs.mem
  memRange := hs.memRange
  baddr := hs.baddr
  err := by
    rw [raise_err]
    split
    · exact f.code_bounds.2
    · exact hs.err
  einfo h := by
    rw [raise_err] at h
    split at h
    · exact absurd h f.code_bounds.1
    · next hne => exact absurd h hne
  flt _ := by
    rw [raise_err]
    split
    · exact f.code_bounds.1
    · next hne => exact hne
  tables := hs.tables.congr rfl rfl rfl

theorem map_complete (hs : s.Inv) (crc : Word) (prev : Byte) (result : Word) :
    (complete { s with crc := crc, prev := prev, result := result }).Inv :=
  hs.congr rfl rfl rfl rfl rfl nofun (hs.tables.congr rfl rfl rfl)

/-- After a reset no slot is valid, so the store is right whatever its entries hold. -/
theorem map_resetBlock (hs : s.Inv) : (resetBlock s).Inv where
  cfg := hs.cfg
  mem := hs.mem
  memRange := hs.memRange
  baddr := by simp
  err := by simp
  einfo _ := rfl
  flt := nofun
  tables := ⟨fun t h => by simp [slotValid] at h, fun t k h => by simp [slotValid] at h⟩

theorem map_memSet (hs : s.Inv) {a : Nat} (ha : a < 2 ^ s.cfg.aw) (b : Byte) :
    ({ s with mem := memSet s.mem a b } : State).Inv where
  cfg := hs.cfg
  mem := memSet_wf hs.mem a b
  memRange c hc := by
    rcases memSet_mem hc with h | h
    · rw [h]
      exact ha
    · exact hs.memRange c h
  baddr := hs.baddr
  err := hs.err
  einfo := hs.einfo
  flt := hs.flt
  tables := hs.tables.congr rfl rfl rfl

/-- `BADDR` keeps `AW` bits: a host write drops the rest (R24, R173). -/
theorem map_writeBaddr (hs : s.Inv) (v : Word) : (writeBaddr s v).Inv where
  cfg := hs.cfg
  mem := hs.mem
  memRange := hs.memRange
  baddr := toNat_toWidth_lt 64 (toWidth s.cfg.aw v)
  err := hs.err
  einfo := hs.einfo
  flt := hs.flt
  tables := hs.tables.congr rfl rfl rfl

theorem of_exec (hs : s.Inv) {i : Instr} (h : exec i s = .next t) : t.Inv := by
  rcases exec_cases i s with ⟨-, he⟩ | ⟨f, -, he⟩ | ⟨crc, prev, result, he⟩ | ⟨vid, P, crc, result, -, hv, hk, he⟩ |
      ⟨vid, a, -, he⟩ | ⟨vid, P, a, -, hv, hk, he⟩ <;> rw [he] at h <;> cases h
  · exact hs.map_resetBlock
  · exact hs.map_raise _ _
  · exact hs.map_complete crc prev result
  · exact (hs.map_ensureTable hv hk).map_complete crc _ result
  · exact hs.map_raise _ _
  · exact (hs.map_ensureTable hv hk).map_raise _ _

theorem of_execWord (hs : s.Inv) {w : CmdWord} (h : execWord w s = .next t) : t.Inv := by
  cases hw : decode w with
  | ok i => exact hs.of_exec ((execWord_ok hw s).symm.trans h)
  | error e =>
    rw [execWord_error hw] at h
    cases h
    exact hs.map_raise _ _

theorem of_hostWrite (hs : s.Inv) {r : Reg} {v : Word} (h : hostWrite r v s = .next t) : t.Inv := by
  cases r with
  | cmd => exact hs.of_execWord h
  | baddr =>
    cases h
    exact hs.map_writeBaddr v
  | _ =>
    cases h
    exact hs.congr rfl rfl rfl rfl rfl id (hs.tables.congr rfl rfl rfl)

theorem of_hostAct (hs : s.Inv) {act : HostAction} (h : hostAct act s = .next t) : t.Inv := by
  cases act with
  | read r =>
    cases h
    exact hs.congr rfl rfl rfl rfl rfl id (hs.tables.congr rfl rfl rfl)
  | write r v => exact hs.of_hostWrite h
  | reset =>
    cases h
    exact hs.map_resetBlock
  | memWrite a b =>
    obtain ⟨ha, rfl⟩ := platformWrite_cases h
    exact hs.map_memSet ha b

end State.Inv

/-! ## One step is the idle step or one host action -/

theorem step_idle {s : State} (h : s.pending = []) : step s = .next s := by
  simp only [step, nextAction, h]

theorem step_cons {s : State} {act : HostAction} {rest : List HostAction} (h : s.pending = act :: rest) :
    step s = hostAct act { s with pending := rest } := by
  simp only [step, nextAction, h]

theorem step_cases {s t : State} (h : step s = .next t) :
    (s.pending = [] ∧ t = s) ∨ ∃ act rest, s.pending = act :: rest ∧ hostAct act { s with pending := rest } = .next t := by
  cases hp : s.pending with
  | nil =>
    rw [step_idle hp] at h
    cases h
    exact .inl ⟨rfl, rfl⟩
  | cons act rest => exact .inr ⟨act, rest, rfl, (step_cons hp).symm.trans h⟩

/-- Settles O59: every named update keeps the invariant, and a step is the idle step or one host action. -/
theorem everyStepKeepsTheInvariant : Obligations.EveryStepKeepsTheInvariant := by
  intro s t hs h
  rcases step_cases h with ⟨-, rfl⟩ | ⟨act, rest, -, hact⟩
  · exact hs
  · have hrest : ({ s with pending := rest } : State).Inv :=
      hs.congr rfl rfl rfl rfl rfl id (hs.tables.congr rfl rfl rfl)
    exact hrest.of_hostAct hact

/-- The default configuration is one of this block; its check values are the long part (R53, R55). -/
theorem default_wf : Config.default.wf = true := by
  rw [Config.wf, Bool.and_eq_true, decide_eq_true_iff]
  exact ⟨by decide, attestedChecks_defaultPresets⟩

/-- Settles O58: memory is empty, no fault is on record and no slot is valid. -/
theorem invariantAtReset : Obligations.InvariantAtReset where
  cfg := default_wf
  mem := ⟨.nil, nofun⟩
  memRange := nofun
  baddr := by decide
  err := by decide
  einfo _ := rfl
  flt := nofun
  tables := ⟨fun t h => by simp [slotValid, State.reset] at h, fun t k h => by simp [slotValid, State.reset] at h⟩

/-- Settles O53: a step with a write to `CMD` pending executes the word, and the placed word is such a write. -/
theorem stepRunsTheDecodedCommand : Obligations.StepRunsTheDecodedCommand := by
  refine ⟨fun s v rest i hp hd => ?_, fun s w i hd => ?_, fun s hp => step_idle hp⟩
  · rw [step_cons hp]
    exact execWord_ok hd _
  · have hword : toWidth 32 (toWidth 64 (tableWord 32 w.toNat)) = w := by
      apply BitVec.eq_of_toNat_eq
      simpa [toWidth, tableWord] using w.isLt
    rw [step_cons (s := s.withFetchWord 32 w.toNat) rfl]
    refine execWord_ok ?_ s
    rw [hword]
    exact hd

theorem isResetState_resetBlock (s : State) : IsResetState (resetBlock s) :=
  ⟨rfl, rfl, rfl, rfl, rfl, rfl, rfl, rfl, fun n => by simp [slotValid]⟩

/-- Settles O56: the start state, the reset input and SRESET give the block the same values. -/
theorem resetValues : Obligations.ResetValues := by
  refine ⟨isResetState_resetBlock State.reset, ?_⟩
  rintro s t (h | h) <;> cases h <;> exact isResetState_resetBlock s

end Sys2Proof.Machine

namespace Sys2Proof.Machine

/-! ## What a command leaves unchanged (`10_state.md` section 2) -/

theorem memRead_congr {s t : State} (hmem : t.mem = s.mem) (hcfg : t.cfg = s.cfg) (a : Nat) : memRead t a = memRead s a := by
  rw [memRead, memRead, hmem, hcfg]

/-- What every command but SRESET leaves alone. -/
structure CommandFrame (s t : State) : Prop where
  baddr : t.baddr = s.baddr
  blen : t.blen = s.blen
  mem : t.mem = s.mem
  pending : t.pending = s.pending
  rdata : t.rdata = s.rdata
  cfg : t.cfg = s.cfg

theorem commandFrame_of_exec {i : Instr} {s t : State} (h : exec i s = .next t) (hi : i ≠ .sreset) : CommandFrame s t := by
  rcases exec_cases i s with ⟨hr, -⟩ | ⟨f, -, he⟩ | ⟨_, _, _, he⟩ | ⟨_, P, _, _, -, -, -, he⟩ | ⟨_, _, -, he⟩ |
      ⟨_, P, _, -, -, -, he⟩
  · exact absurd hr hi
  all_goals
    rw [he] at h
    cases h
    constructor <;> simp

/-- The record of a fault is written by a faulting command where it is clear, and by no other command but SRESET (R210). -/
theorem record_of_exec {i : Instr} {s t : State} (h : exec i s = .next t) (hi : i ≠ .sreset)
    (hne : t.err ≠ s.err ∨ t.einfo ≠ s.einfo) : s.err = 0 ∧ t.flt = true := by
  rcases exec_cases i s with ⟨hr, -⟩ | ⟨f, -, he⟩ | ⟨_, _, _, he⟩ | ⟨_, P, _, _, -, -, -, he⟩ | ⟨_, _, -, he⟩ |
      ⟨_, P, _, -, -, -, he⟩
  · exact absurd hr hi
  all_goals
    rw [he] at h
    cases h
    by_cases h0 : s.err = 0 <;> simp_all

theorem exec_cfg {i : Instr} {s t : State} (h : exec i s = .next t) : t.cfg = s.cfg := by
  by_cases hi : i = .sreset
  · subst hi
    cases h
    rfl
  · exact (commandFrame_of_exec h hi).cfg

theorem execWord_cfg {w : CmdWord} {s t : State} (h : execWord w s = .next t) : t.cfg = s.cfg := by
  cases hw : decode w with
  | ok i => exact exec_cfg ((execWord_ok hw s).symm.trans h)
  | error e =>
    rw [execWord_error hw] at h
    cases h
    rfl

theorem hostAct_cfg {act : HostAction} {s t : State} (h : hostAct act s = .next t) : t.cfg = s.cfg := by
  cases act with
  | read r =>
    cases h
    rfl
  | reset =>
    cases h
    rfl
  | memWrite a b =>
    obtain ⟨-, rfl⟩ := platformWrite_cases h
    rfl
  | write r v =>
    cases r with
    | cmd => exact execWord_cfg h
    | _ =>
      cases h
      rfl

/-- Settles O55: no host action changes the configuration, and the idle step changes nothing. -/
theorem configurationNeverChanges : Obligations.ConfigurationNeverChanges := by
  intro s t h
  rcases step_cases h with ⟨-, rfl⟩ | ⟨act, rest, -, hact⟩
  · rfl
  · exact hostAct_cfg (s := { s with pending := rest }) hact

/-! ## What each command of a variant can do (R115, R116, R134, R151 to R153) -/

@[simp] theorem foldInto_crc (s : State) {w : Nat} (f : List Byte → BitVec w) : (foldInto s f).crc = s.crc := by
  rcases foldInto_cases s f with ⟨B, -, h⟩ | ⟨a, -, h⟩ <;> rw [h] <;> rfl

@[simp] theorem foldInto_prev (s : State) {w : Nat} (f : List Byte → BitVec w) : (foldInto s f).prev = s.prev := by
  rcases foldInto_cases s f with ⟨B, -, h⟩ | ⟨a, -, h⟩ <;> rw [h] <;> rfl

theorem exec_tbuild_cases {vid : BitVec 4} {s t : State} (h : exec (.tbuild vid) s = .next t) :
    t = raiseCmd s .illegalVariant (.tbuild vid) ∨ ∃ n, t = complete (ensureTable s n) := by
  cases hP : s.cfg.tableVariant? vid with
  | none =>
    rw [exec_tbuild_none hP] at h
    cases h
    exact .inl rfl
  | some P =>
    rw [exec_tbuild_some hP] at h
    cases h
    exact .inr ⟨_, rfl⟩

theorem exec_tread_cases {vid : BitVec 4} {index : Byte} {s t : State} (h : exec (.tread vid index) s = .next t) :
    t = raiseCmd s .illegalVariant (.tread vid index) ∨
      ∃ (n w : Nat) (v : BitVec w), t = complete (writeResult (ensureTable s n) v) := by
  cases hP : s.cfg.tableVariant? vid with
  | none =>
    rw [exec_tread_none hP] at h
    cases h
    exact .inl rfl
  | some P =>
    rw [exec_tread_some hP] at h
    cases h
    exact .inr ⟨_, _, _, rfl⟩

theorem exec_cinit_cases {vid : BitVec 4} {s t : State} (h : exec (.cinit vid) s = .next t) :
    t = raiseCmd s .illegalVariant (.cinit vid) ∨
      ∃ P, s.cfg.variant? vid = some P ∧
        ((P.kind = .table ∧ t = complete (writeCrc s P.init)) ∨
          (P.kind = .sick ∧ t = complete (writePrev (writeCrc s P.init) 0))) := by
  cases hP : s.cfg.variant? vid with
  | none =>
    rw [exec_cinit_none hP] at h
    cases h
    exact .inl rfl
  | some P =>
    refine .inr ⟨P, rfl, ?_⟩
    cases hk : P.kind with
    | table =>
      rw [exec_cinit_table hP hk] at h
      cases h
      exact .inl ⟨rfl, rfl⟩
    | sick =>
      rw [exec_cinit_sick hP hk] at h
      cases h
      exact .inr ⟨rfl, rfl⟩

theorem exec_step_cases {vid : BitVec 4} {c : Byte} {s t : State} (h : exec (.step vid c) s = .next t) :
    t = raiseCmd s .illegalVariant (.step vid c) ∨
      ∃ P, s.cfg.variant? vid = some P ∧
        ((P.kind = .table ∧ ∃ v : BitVec P.W, t = complete (writeCrc (ensureTable s (s.cfg.tid P)) v)) ∨
          (P.kind = .sick ∧ ∃ v : BitVec 16, t = complete (writePrev (writeCrc s v) c))) := by
  cases hP : s.cfg.variant? vid with
  | none =>
    rw [exec_step_none hP] at h
    cases h
    exact .inl rfl
  | some P =>
    refine .inr ⟨P, rfl, ?_⟩
    cases hk : P.kind with
    | table =>
      rw [exec_step_table hP hk] at h
      cases h
      exact .inl ⟨rfl, _, rfl⟩
    | sick =>
      rw [exec_step_sick hP hk] at h
      cases h
      exact .inr ⟨rfl, _, rfl⟩

theorem exec_cfinal_cases {vid : BitVec 4} {s t : State} (h : exec (.cfinal vid) s = .next t) :
    t = raiseCmd s .illegalVariant (.cfinal vid) ∨ ∃ (w : Nat) (v : BitVec w), t = complete (writeResult s v) := by
  cases hP : s.cfg.variant? vid with
  | none =>
    rw [exec_cfinal_none hP] at h
    cases h
    exact .inl rfl
  | some P =>
    rw [exec_cfinal_some hP] at h
    cases h
    exact .inr ⟨_, _, rfl⟩

theorem exec_compute_cases {vid : BitVec 4} {s t : State} (h : exec (.compute vid) s = .next t) :
    (∃ f, t = raiseCmd s f (.compute vid)) ∨
      ∃ (w : Nat) (f : List Byte → BitVec w), t = foldInto s f ∨ ∃ n, t = foldInto (ensureTable s n) f := by
  cases hP : s.cfg.variant? vid with
  | none =>
    rw [exec_compute_none hP] at h
    cases h
    exact .inl ⟨_, rfl⟩
  | some P =>
    cases hn : nullBuffer s with
    | true =>
      rw [exec_compute_null hP hn] at h
      cases h
      exact .inl ⟨_, rfl⟩
    | false =>
      cases hr : bufferPastTop s with
      | true =>
        rw [exec_compute_range hP hn hr] at h
        cases h
        exact .inl ⟨_, rfl⟩
      | false =>
        cases hk : P.kind with
        | table =>
          rw [exec_compute_table hP hn hr hk] at h
          cases h
          exact .inr ⟨_, _, .inr ⟨_, rfl⟩⟩
        | sick =>
          rw [exec_compute_sick hP hn hr hk] at h
          cases h
          exact .inr ⟨_, _, .inl rfl⟩

/-- The writers of `CRC`, `PREV`, `RESULT` and the table store, command by command. -/
theorem writers_of_exec {i : Instr} {s t : State} (h : exec i s = .next t) (hi : i ≠ .sreset) :
    (t.crc ≠ s.crc → (∃ v, i = .cinit v) ∨ ∃ v c, i = .step v c)
    ∧ (t.prev ≠ s.prev → ((∃ v, i = .cinit v) ∨ ∃ v c, i = .step v c)
        ∧ ∃ v P, i.vid? = some v ∧ s.cfg.variant? v = some P ∧ P.kind = .sick)
    ∧ (t.result ≠ s.result → (∃ v b, i = .tread v b) ∨ (∃ v, i = .cfinal v) ∨ ∃ v, i = .compute v)
    ∧ (t.tvalid ≠ s.tvalid ∨ t.tent ≠ s.tent →
        (∃ v, i = .tbuild v) ∨ (∃ v b, i = .tread v b) ∨ (∃ v c, i = .step v c) ∨ ∃ v, i = .compute v) := by
  cases i with
  | sreset => exact absurd rfl hi
  | nop =>
    cases h
    simp
  | tbuild vid => rcases exec_tbuild_cases h with rfl | ⟨n, rfl⟩ <;> simp
  | tread vid index => rcases exec_tread_cases h with rfl | ⟨n, w, v, rfl⟩ <;> simp
  | cinit vid =>
    rcases exec_cinit_cases h with rfl | ⟨P, hP, ⟨hk, rfl⟩ | ⟨hk, rfl⟩⟩
    · simp
    · simp
    · simp [Instr.vid?, hP, hk]
  | step vid c =>
    rcases exec_step_cases h with rfl | ⟨P, hP, ⟨hk, v, rfl⟩ | ⟨hk, v, rfl⟩⟩
    · simp
    · simp
    · simp [Instr.vid?, hP, hk]
  | cfinal vid => rcases exec_cfinal_cases h with rfl | ⟨w, v, rfl⟩ <;> simp
  | compute vid => rcases exec_compute_cases h with ⟨f, rfl⟩ | ⟨w, f, rfl | ⟨n, rfl⟩⟩ <;> simp

/-- Settles O29: the writers of each register, the record of a fault, and the frame of every command. -/
theorem registerWriters : Obligations.RegisterWriters := by
  intro i s t h hi
  obtain ⟨hcrc, hprev, hresult, hstore⟩ := writers_of_exec h hi
  have hf := commandFrame_of_exec h hi
  exact ⟨hcrc, hprev, hresult, record_of_exec h hi, hstore, hf.baddr, hf.blen, hf.mem, memRead_congr hf.mem hf.cfg, hf.pending,
    hf.rdata, hf.cfg⟩

/-! ## A valid slot is kept (R30, R83) -/

theorem SlotEnsured.keeps_valid {s t : State} {m : Nat} {k : Key} (h : SlotEnsured s t m k) {n : Nat}
    (hn : slotValid s n = true) :
    slotValid t n = true ∧ ∀ i, entry t n i = entry s n i := by
  by_cases hnm : n = m
  · subst hnm
    exact ⟨h.valid, fun i => by rw [h.built, if_pos hn]⟩
  · obtain ⟨hv, he⟩ := h.others n hnm
    exact ⟨hv.trans hn, he⟩

theorem exec_keeps_valid {i : Instr} {s t : State} (h : exec i s = .next t) (hi : i ≠ .sreset) {n : Nat}
    (hn : slotValid s n = true) :
    slotValid t n = true ∧ ∀ b, entry t n b = entry s n b := by
  have hens : ∀ {vid P}, s.cfg.variant? vid = some P → P.kind = .table →
      slotValid (ensureTable s (s.cfg.tid P)) n = true ∧ ∀ b, entry (ensureTable s (s.cfg.tid P)) n b = entry s n b :=
    fun hv hk => (ensureTable_slotEnsured (Config.tid_lt hv hk) (Config.keys_tid hv hk)).keeps_valid hn
  rcases exec_cases i s with ⟨hr, -⟩ | ⟨f, -, he⟩ | ⟨_, _, _, he⟩ | ⟨_, P, _, _, -, hv, hk, he⟩ | ⟨_, _, -, he⟩ |
      ⟨_, P, _, -, hv, hk, he⟩
  · exact absurd hr hi
  all_goals
    rw [he] at h
    cases h
  · exact ⟨hn, fun _ => rfl⟩
  · exact ⟨hn, fun _ => rfl⟩
  · exact hens hv hk
  · exact ⟨hn, fun _ => rfl⟩
  · exact hens hv hk

/-- Settles O41: a command other than SRESET writes the store through `ensure_table` alone, which leaves a valid slot alone;
an illegal word writes the fault record alone. -/
theorem validSlotIsNeverRebuilt : Obligations.ValidSlotIsNeverRebuilt := by
  intro w s t n h hw hn
  cases hd : decode w with
  | ok i => exact exec_keeps_valid ((execWord_ok hd s).symm.trans h) (fun hi => hw (hi ▸ hd)) hn
  | error e =>
    rw [execWord_error hd] at h
    cases h
    exact ⟨hn, fun _ => rfl⟩

/-! ## Independence of `CRC` and `PREV` (R22, R33) -/

theorem ensureTable_withStream (s : State) (x : Word) (p : Byte) (n : Nat) :
    ensureTable { s with crc := x, prev := p } n = { ensureTable s n with crc := x, prev := p } := by
  cases hv : s.tvalid.getLsbD n <;> cases hk : s.cfg.keys[n]? <;> simp only [ensureTable, slotValid, hv, hk] <;> rfl

theorem foldInto_withStream (s : State) (x : Word) (p : Byte) {w : Nat} (f : List Byte → BitVec w) :
    foldInto { s with crc := x, prev := p } f = { foldInto s f with crc := x, prev := p } := by
  have hread : readBuffer { s with crc := x, prev := p } (bufAddr s) (bufLen s) = readBuffer s (bufAddr s) (bufLen s) :=
    readBuffer_congr (s := { s with crc := x, prev := p }) (t := s) (fun _ => rfl) _ _
  rcases foldInto_cases s f with ⟨B, hB, h⟩ | ⟨a, ha, h⟩
  · rw [h, foldInto_ok (hread.trans hB)]
    rfl
  · rw [h, foldInto_error (hread.trans ha)]
    rfl

/-- COMPUTE carries any other `CRC` and `PREV` through (R33). -/
theorem exec_compute_withStream {vid : BitVec 4} {s t : State} (h : exec (.compute vid) s = .next t) (x : Word) (p : Byte) :
    exec (.compute vid) { s with crc := x, prev := p } = .next { t with crc := x, prev := p } := by
  cases hP : s.cfg.variant? vid with
  | none =>
    rw [exec_compute_none hP] at h
    cases h
    exact exec_compute_none hP
  | some P =>
    cases hn : nullBuffer s with
    | true =>
      rw [exec_compute_null hP hn] at h
      cases h
      exact exec_compute_null hP hn
    | false =>
      cases hr : bufferPastTop s with
      | true =>
        rw [exec_compute_range hP hn hr] at h
        cases h
        exact exec_compute_range hP hn hr
      | false =>
        cases hk : P.kind with
        | table =>
          rw [exec_compute_table hP hn hr hk] at h
          cases h
          rw [exec_compute_table (s := { s with crc := x, prev := p }) hP hn hr hk, ensureTable_withStream, foldInto_withStream]
          rfl
        | sick =>
          rw [exec_compute_sick hP hn hr hk] at h
          cases h
          rw [exec_compute_sick (s := { s with crc := x, prev := p }) hP hn hr hk, foldInto_withStream]

/-- Settles O26: COMPUTE carries any `CRC` and `PREV` through, the state's own among them, which are therefore kept. -/
theorem computeLeavesTheStream : Obligations.ComputeLeavesTheStream := by
  intro s t vid x p h
  have hown : t = { t with crc := s.crc, prev := s.prev } :=
    Host.Outcome.next.inj (h.symm.trans (exec_compute_withStream h s.crc s.prev))
  exact ⟨(congrArg State.crc hown).trans rfl, (congrArg State.prev hown).trans rfl, exec_compute_withStream h x p⟩

/-- STEP reads no bit of `CRC` from its variant's width up, and it writes all of `CRC` (R22). -/
theorem exec_step_withCrc {s : State} {vid : BitVec 4} {P : ParamSet} {x : Word} (hc : s.cfg.wf = true)
    (hP : s.cfg.variant? vid = some P) (hx : readCrc { s with crc := x } P.W = readCrc s P.W) (c : Byte) :
    exec (.step vid c) { s with crc := x } = exec (.step vid c) s := by
  cases hk : P.kind with
  | table =>
    rw [exec_step_table hP hk, exec_step_table (s := { s with crc := x }) hP hk, ensureTable_withStream, hx]
    rw [ensureTable_frame s]
    rfl
  | sick =>
    have hW : P.W = 16 := congrArg Width.bits (Config.sick_width hc hP hk)
    rw [hW] at hx
    rw [exec_step_sick hP hk, exec_step_sick (s := { s with crc := x }) hP hk, hx]
    rfl

theorem crc_lt_of_step {s t : State} {vid : BitVec 4} {P : ParamSet} {c : Byte} (hc : s.cfg.wf = true)
    (hP : s.cfg.variant? vid = some P) (h : exec (.step vid c) s = .next t) : t.crc.toNat < 2 ^ P.W := by
  cases hk : P.kind with
  | table =>
    rw [exec_step_table hP hk] at h
    cases h
    exact toNat_toWidth_lt 64 _
  | sick =>
    have hW : P.W = 16 := congrArg Width.bits (Config.sick_width hc hP hk)
    rw [exec_step_sick hP hk] at h
    cases h
    rw [hW]
    exact toNat_toWidth_lt 64 _

theorem crc_lt_of_cinit {s t : State} {vid : BitVec 4} {P : ParamSet} (hP : s.cfg.variant? vid = some P)
    (h : exec (.cinit vid) s = .next t) : t.crc.toNat < 2 ^ P.W := by
  cases hk : P.kind with
  | table =>
    rw [exec_cinit_table hP hk] at h
    cases h
    exact toNat_toWidth_lt 64 _
  | sick =>
    rw [exec_cinit_sick hP hk] at h
    cases h
    exact toNat_toWidth_lt 64 _

/-- Settles O30: the commands read `CRC` at the variant's width and write it zero-extended; the Sick kind's 16 bits are its
width by the invariant (R51). -/
theorem upperCrcBitsAreIgnored : Obligations.UpperCrcBitsAreIgnored := by
  intro s vid P x c hs hP hx
  have hread : readCrc { s with crc := x } P.W = readCrc s P.W := hx
  refine ⟨exec_step_withCrc hs.cfg hP hread c, ⟨_, _, exec_cfinal_some hP, exec_cfinal_some hP, ?_, rfl⟩, fun i hi => ?_⟩
  · simp only [complete_result, writeResult_result, hread]
  · obtain ⟨t, ht⟩ := exec_next i s
    refine ⟨t, ht, ?_⟩
    simp only [List.mem_cons, List.not_mem_nil, or_false] at hi
    rcases hi with rfl | rfl
    · exact crc_lt_of_step hs.cfg hP ht
    · exact crc_lt_of_cinit hP ht

/-! ## `STATUS` (R28) -/

/-- `STATUS` bit by bit, from the bottom up. -/
theorem getLsbD_statusWord (s : State) (i : Nat) :
    (statusWord s).getLsbD i =
      if i < 4 then s.err.getLsbD i
      else if i = 4 then s.flt
      else if i < 16 then false
      else s.tvalid.getLsbD (i - 16) := by
  simp only [statusWord, BitVec.getLsbD_append, BitVec.getLsbD_ofBool, BitVec.getLsbD_zero]
  by_cases h4 : i < 4
  · simp [h4]
  by_cases h5 : i = 4
  · simp [h5]
  have hflt : ¬ i - 4 < 1 := by omega
  by_cases h16 : i < 16
  · have hzero : i - 4 - 1 < 11 := by omega
    simp [h4, h5, h16, hflt, hzero]
  · have hzero : ¬ i - 4 - 1 < 11 := by omega
    have hsub : i - 4 - 1 - 11 = i - 16 := by omega
    simp only [h4, h5, h16, hflt, hzero, hsub, if_false]
    split
    · rfl
    · next h => exact (BitVec.getLsbD_of_ge _ _ (by omega)).symm

/-- Settles O48: each field is read off `STATUS` bit by bit. -/
theorem statusFields : Obligations.StatusFields := by
  intro s
  have hread : hostRead s .status = statusWord s := rfl
  have hvalid : ∀ t < 16, (hostRead s .status).getLsbD (16 + t) = slotValid s t := fun t ht => by
    rw [hread, getLsbD_statusWord, if_neg (by omega), if_neg (by omega), if_neg (by omega), Nat.add_sub_cancel_left, slotValid]
  refine ⟨?_, ?_, ?_, ?_, hvalid, fun hs t hn ht => ?_, fun v => rfl⟩
  · refine BitVec.eq_of_getLsbD_eq fun i hi => ?_
    simp [hread, getLsbD_statusWord, hi]
  · rw [hread, getLsbD_statusWord]
    rfl
  · refine BitVec.eq_of_getLsbD_eq fun i hi => ?_
    have h4 : ¬ 5 + i < 4 := by omega
    have h5 : 5 + i ≠ 4 := by omega
    have h16 : 5 + i < 16 := by omega
    simp [hread, getLsbD_statusWord, h4, h5, h16]
  · refine BitVec.eq_of_getLsbD_eq fun i hi => ?_
    have h4 : ¬ 32 + i < 4 := by omega
    have h5 : 32 + i ≠ 4 := by omega
    have h16 : ¬ 32 + i < 16 := by omega
    have htop : s.tvalid.getLsbD (32 + i - 16) = false := BitVec.getLsbD_of_ge _ _ (by omega)
    simp [hread, getLsbD_statusWord, h4, h5, h16, htop]
  · rw [hvalid t ht, ← Bool.not_eq_true]
    intro hv
    exact absurd (hs.tables.unused t hv) (by omega)

end Sys2Proof.Machine

namespace Sys2Proof.Machine

/-! ## The table slots of the default ROM (R52, R56) -/

/-- `key(t)` of the default ROM, slot by slot (R52): a new key is met at the variants 0, 1, 3, 6, 7, 9 and 10. -/
theorem default_keys :
    Config.default.keys =
      [presetCrc8.toKey, presetCrc16.toKey, presetXmodem.toKey, presetDnp.toKey, presetKermit.toKey, presetCrc32.toKey,
        presetCrc64We.toKey] := by
  decide

/-- Settles O38: the slot of a table-kind variant is the place of its key among the seven, and variants of one key share it. -/
theorem defaultTableSlots : Obligations.DefaultTableSlots := by
  refine ⟨default_keys, ?_⟩
  have htable : defaultPresets.filter (·.kind = .table) =
      [presetCrc8, presetCrc16, presetModbus, presetCcitt1d0f, presetCcittFfff, presetXmodem, presetDnp, presetKermit,
        presetCrc32, presetCrc64Ecma, presetCrc64We] := rfl
  simp only [htable, List.map_cons, List.map_nil, Config.tid, default_keys]
  decide

end Sys2Proof.Machine

namespace Sys2Proof.Machine

/-! ## Memory has the platform as its one writer (R78, R79) -/

theorem exec_mem {i : Instr} {s t : State} (h : exec i s = .next t) : t.mem = s.mem := by
  by_cases hi : i = .sreset
  · subst hi
    cases h
    rfl
  · exact (commandFrame_of_exec h hi).mem

theorem execWord_mem {w : CmdWord} {s t : State} (h : execWord w s = .next t) : t.mem = s.mem := by
  cases hw : decode w with
  | ok i => exact exec_mem ((execWord_ok hw s).symm.trans h)
  | error e =>
    rw [execWord_error hw] at h
    cases h
    rfl

/-- Settles O28: no command writes memory, and a read depends on memory and the configuration alone. -/
theorem memoryIsNeverWritten : Obligations.MemoryIsNeverWritten := by
  intro w s t h
  have hmem := execWord_mem h
  exact ⟨hmem, memRead_congr hmem (execWord_cfg h)⟩

theorem platformWrite_next {a : Word} {s : State} (ha : a.toNat < 2 ^ s.cfg.aw) (b : Byte) :
    platformWrite a b s = .next { s with mem := memSet s.mem a.toNat b } := if_pos ha

theorem platformWrite_fault {a : Word} {s : State} (ha : 2 ^ s.cfg.aw ≤ a.toNat) (b : Byte) :
    platformWrite a b s = .fault .noSuchAddress := if_neg ha.not_gt

/-- The buffer port after a store: an address in `MemErr` answers `error` whatever is stored there (R71). -/
theorem memRead_memSet {s : State} (hm : Memory.wf s.mem) (a : Nat) (b : Byte) (x : Nat) :
    memRead { s with mem := memSet s.mem a b } x = if x = a ∧ x ∉ s.cfg.memErr then some b else memRead s x := by
  by_cases hx : x ∈ s.cfg.memErr
  · simp [memRead, hx]
  · by_cases ha : x = a
    · simp [memRead, memGet_memSet hm, ← ha, hx]
    · simp [memRead, memGet_memSet hm, ha, Ne.symm ha]

/-- Settles O50: the store is a `memSet` below `2^AW` and a stop from there on, and canonical memory reads back what is set. -/
theorem platformWriteIsRead : Obligations.PlatformWriteIsRead := by
  intro s a b hs
  refine ⟨fun ha => ?_, fun ha => platformWrite_fault ha b⟩
  exact ⟨_, platformWrite_next ha b, rfl, memRead_memSet hs.mem a.toNat b⟩

/-! ## Host actions in order (R79, R82) -/

theorem pending_of_hostAct {act : HostAction} {s t : State} (h : hostAct act s = .next t) : t.pending = s.pending := by
  have hkeep : withPending s.pending (.next t) = .next t := by
    rw [← h]
    exact (hostAct_withPending act s s.pending).symm
  exact (congrArg State.pending (Host.Outcome.next.inj hkeep)).symm

/-- Settles O54: the step is the oldest action on the state without it, and no action changes what is pending. -/
theorem actionsTakeEffectInOrder : Obligations.ActionsTakeEffectInOrder := by
  intro s t act rest hp h
  have hact : hostAct act { s with pending := rest } = .next t := (step_cons hp).symm.trans h
  exact ⟨pending_of_hostAct hact, hact⟩

end Sys2Proof.Machine

namespace Sys2Proof

/-! ## Command words and their fields (R91) -/

theorem eq_of_fields {w w' : CmdWord} (hop : opField w = opField w') (hvid : vidField w = vidField w')
    (himm : immField w = immField w') (hzero : zeroField w = zeroField w') : w = w' := by
  apply BitVec.eq_of_toNat_eq
  rw [Laws.Encoding.toNat_eq_fields w, hop, hvid, himm, hzero, ← Laws.Encoding.toNat_eq_fields]

/-- A word is the encoding of its own fields where its `zero` field is 0. -/
theorem eq_encodeFields_iff {w : CmdWord} {op vid : BitVec 4} {imm8 : Byte} :
    w = encodeFields op vid imm8 ↔ opField w = op ∧ vidField w = vid ∧ immField w = imm8 ∧ zeroField w = 0 := by
  constructor
  · rintro rfl
    simp
  · rintro ⟨rfl, rfl, rfl, hzero⟩
    exact eq_of_fields (by simp) (by simp) (by simp) (by simp [hzero])

theorem opField_and (w m : CmdWord) : opField (w &&& m) = opField w &&& opField m := BitVec.extractLsb'_and

theorem vidField_and (w m : CmdWord) : vidField (w &&& m) = vidField w &&& vidField m := BitVec.extractLsb'_and

theorem immField_and (w m : CmdWord) : immField (w &&& m) = immField w &&& immField m := BitVec.extractLsb'_and

theorem zeroField_and (w m : CmdWord) : zeroField (w &&& m) = zeroField w &&& zeroField m := BitVec.extractLsb'_and

/-- A masked word's fields are its own fields masked. -/
theorem and_eq_encodeFields_iff {w m : CmdWord} {op : BitVec 4} :
    w &&& m = encodeFields op 0 0 ↔
      opField w &&& opField m = op ∧ vidField w &&& vidField m = 0 ∧ immField w &&& immField m = 0
        ∧ zeroField w &&& zeroField m = 0 := by
  rw [eq_encodeFields_iff, opField_and, vidField_and, immField_and, zeroField_and]

/-- The words of a command that uses no operand field: the mask leaves nothing out (R93). -/
theorem eq_encodeFields_zero_iff {w : CmdWord} {op : BitVec 4} :
    w = encodeFields op 0 0 ↔ w &&& 0xFFFFFFFF = encodeFields op 0 0 := by
  rw [show (0xFFFFFFFF : CmdWord) = BitVec.allOnes 32 from rfl, BitVec.and_allOnes]

/-- The words of a command that uses `vid` alone: the mask leaves `vid` out (R93). -/
theorem exists_vid_iff {w : CmdWord} {op : BitVec 4} :
    (∃ vid, w = encodeFields op vid 0) ↔ w &&& 0xFFFFFF0F = encodeFields op 0 0 := by
  have hop : opField 0xFFFFFF0F = BitVec.allOnes 4 := by decide
  have hvid : vidField 0xFFFFFF0F = 0 := by decide
  have himm : immField 0xFFFFFF0F = BitVec.allOnes 8 := by decide
  have hzero : zeroField 0xFFFFFF0F = BitVec.allOnes 16 := by decide
  rw [and_eq_encodeFields_iff, hop, hvid, himm, hzero]
  simp only [eq_encodeFields_iff, BitVec.and_allOnes]
  simp

/-- The words of a command that uses `vid` and `imm8`: the mask leaves both out (R93). -/
theorem exists_vid_imm_iff {w : CmdWord} {op : BitVec 4} :
    (∃ vid imm8, w = encodeFields op vid imm8) ↔ w &&& 0xFFFF000F = encodeFields op 0 0 := by
  have hop : opField 0xFFFF000F = BitVec.allOnes 4 := by decide
  have hvid : vidField 0xFFFF000F = 0 := by decide
  have himm : immField 0xFFFF000F = 0 := by decide
  have hzero : zeroField 0xFFFF000F = BitVec.allOnes 16 := by decide
  rw [and_eq_encodeFields_iff, hop, hvid, himm, hzero]
  simp only [eq_encodeFields_iff, BitVec.and_allOnes]
  simp

/-! ## The decoder inverts the encoder (R94) -/

theorem decodePlain_eq_ok {w : CmdWord} {i j : Instr} :
    decodePlain w i = .ok j ↔ vidField w = 0 ∧ immField w = 0 ∧ i = j := by
  unfold decodePlain
  split
  · simp_all
  · split <;> simp_all

theorem decodeVariant_eq_ok {w : CmdWord} {mk : BitVec 4 → Instr} {j : Instr} :
    decodeVariant w mk = .ok j ↔ immField w = 0 ∧ mk (vidField w) = j := by
  unfold decodeVariant
  split <;> simp_all

theorem exists_decodePlain_eq_error {w : CmdWord} {i : Instr} :
    (∃ e, decodePlain w i = .error e) ↔ immField w ≠ 0 ∨ vidField w ≠ 0 := by
  unfold decodePlain
  split
  · simp_all
  · split <;> simp_all

theorem exists_decodeVariant_eq_error {w : CmdWord} {mk : BitVec 4 → Instr} :
    (∃ e, decodeVariant w mk = .error e) ↔ immField w ≠ 0 := by
  unfold decodeVariant
  split <;> simp_all

theorem decode_encode (i : Instr) : decode (encode i) = .ok i := by
  cases i <;> simp [encode, decode, decodePlain, decodeVariant]

/-- A row accepts a word only with 0 in every field its command does not use, as the encoder writes it. -/
theorem eq_encode_of_decode {w : CmdWord} {i : Instr} (h : decode w = .ok i) : w = encode i := by
  unfold decode at h
  split at h
  · cases h
  next hz =>
  have hzero : zeroField w = 0 := not_not.mp hz
  split at h
  case h_1 hop =>
    obtain ⟨hvid, himm, rfl⟩ := decodePlain_eq_ok.mp h
    exact eq_encodeFields_iff.mpr ⟨BitVec.eq_of_toNat_eq hop, hvid, himm, hzero⟩
  case h_2 hop =>
    obtain ⟨himm, rfl⟩ := decodeVariant_eq_ok.mp h
    exact eq_encodeFields_iff.mpr ⟨BitVec.eq_of_toNat_eq hop, rfl, himm, hzero⟩
  case h_3 hop =>
    cases h
    exact eq_encodeFields_iff.mpr ⟨BitVec.eq_of_toNat_eq hop, rfl, rfl, hzero⟩
  case h_4 hop =>
    obtain ⟨himm, rfl⟩ := decodeVariant_eq_ok.mp h
    exact eq_encodeFields_iff.mpr ⟨BitVec.eq_of_toNat_eq hop, rfl, himm, hzero⟩
  case h_5 hop =>
    cases h
    exact eq_encodeFields_iff.mpr ⟨BitVec.eq_of_toNat_eq hop, rfl, rfl, hzero⟩
  case h_6 hop =>
    obtain ⟨himm, rfl⟩ := decodeVariant_eq_ok.mp h
    exact eq_encodeFields_iff.mpr ⟨BitVec.eq_of_toNat_eq hop, rfl, himm, hzero⟩
  case h_7 hop =>
    obtain ⟨himm, rfl⟩ := decodeVariant_eq_ok.mp h
    exact eq_encodeFields_iff.mpr ⟨BitVec.eq_of_toNat_eq hop, rfl, himm, hzero⟩
  case h_8 hop =>
    obtain ⟨hvid, himm, rfl⟩ := decodePlain_eq_ok.mp h
    exact eq_encodeFields_iff.mpr ⟨BitVec.eq_of_toNat_eq hop, hvid, himm, hzero⟩
  case h_9 => cases h

/-- Settles O1: every command decodes from its own word, and a word that decodes is its command's. -/
theorem decodeInvertsEncode : Obligations.DecodeInvertsEncode := by
  intro w i
  constructor
  · exact eq_encode_of_decode
  · rintro rfl
    exact decode_encode i

/-! ## The opcode map (R93, R94) -/

theorem Instr.exists_iff {p : Instr → Prop} :
    (∃ i, p i) ↔ p .nop ∨ (∃ v, p (.tbuild v)) ∨ (∃ v b, p (.tread v b)) ∨ (∃ v, p (.cinit v)) ∨ (∃ v b, p (.step v b))
      ∨ (∃ v, p (.cfinal v)) ∨ (∃ v, p (.compute v)) ∨ p .sreset := by
  constructor
  · rintro ⟨i, h⟩
    cases i <;> grind
  · rintro (h | ⟨v, h⟩ | ⟨v, b, h⟩ | ⟨v, h⟩ | ⟨v, b, h⟩ | ⟨v, h⟩ | ⟨v, h⟩ | h) <;> exact ⟨_, h⟩

/-- A row selects exactly the words of its command, with the operands at every value. -/
theorem row_selects_iff {row : OpRow} (hrow : row ∈ opcodeMap) (w : CmdWord) :
    (∃ i, decode w = .ok i ∧ i.mnemonic = row.mnemonic) ↔ w &&& row.mask = row.pattern := by
  simp only [decodeInvertsEncode w]
  rw [Instr.exists_iff]
  simp only [opcodeMap, List.mem_cons, List.not_mem_nil, or_false] at hrow
  rcases hrow with rfl | rfl | rfl | rfl | rfl | rfl | rfl | rfl <;>
    simp only [Instr.mnemonic, String.reduceEq, and_true, and_false, exists_false, or_false, false_or]
  · exact eq_encodeFields_zero_iff
  · exact exists_vid_iff
  · exact exists_vid_imm_iff
  · exact exists_vid_iff
  · exact exists_vid_imm_iff
  · exact exists_vid_iff
  · exact exists_vid_iff
  · exact eq_encodeFields_zero_iff

theorem Instr.exists_row (i : Instr) : ∃ row ∈ opcodeMap, i.mnemonic = row.mnemonic := by
  cases i <;> simp [opcodeMap, Instr.mnemonic]

/-- The rows have distinct mnemonics, and a word has one command. -/
theorem row_unique {row row' : OpRow} (hrow : row ∈ opcodeMap) (hrow' : row' ∈ opcodeMap) {w : CmdWord}
    (h : w &&& row.mask = row.pattern) (h' : w &&& row'.mask = row'.pattern) : row = row' := by
  have hdistinct : ∀ r ∈ opcodeMap, ∀ r' ∈ opcodeMap, r.mnemonic = r'.mnemonic → r = r' := by decide
  obtain ⟨i, hi, hm⟩ := (row_selects_iff hrow w).mpr h
  obtain ⟨j, hj, hm'⟩ := (row_selects_iff hrow' w).mpr h'
  obtain rfl : i = j := Except.ok.inj (hi.symm.trans hj)
  exact hdistinct row hrow row' hrow' (hm.symm.trans hm')

/-- The operands of a decoded command are the word's fields. -/
theorem operands_of_decode {w : CmdWord} {i : Instr} (h : decode w = .ok i) :
    (∀ v, i.vid? = some v → v = vidField w) ∧ ∀ b, i.imm? = some b → b = immField w := by
  obtain rfl := eq_encode_of_decode h
  cases i <;> simp [Instr.vid?, Instr.imm?, encode]

theorem decode_refuses_iff (w : CmdWord) : (∃ e, decode w = .error e) ↔ ¬ ∃ i, decode w = .ok i := by
  cases decode w <;> simp

/-- A word is illegal exactly where no row selects it. -/
theorem illegal_iff_no_row (w : CmdWord) : (∃ e, decode w = .error e) ↔ ∀ row ∈ opcodeMap, w &&& row.mask ≠ row.pattern := by
  rw [decode_refuses_iff]
  constructor
  · intro h row hrow hsel
    obtain ⟨i, hi, -⟩ := (row_selects_iff hrow w).mpr hsel
    exact h ⟨i, hi⟩
  · rintro h ⟨i, hi⟩
    obtain ⟨row, hrow, hm⟩ := i.exists_row
    exact h row hrow ((row_selects_iff hrow w).mp ⟨i, hi, hm⟩)

/-- The same, field by field (R94, R95). -/
theorem illegal_iff_fields (w : CmdWord) :
    (∃ e, decode w = .error e) ↔
      zeroField w ≠ 0 ∨ (opField w).toNat ≥ 8 ∨ ((opField w).toNat ∉ [2, 4] ∧ immField w ≠ 0)
        ∨ ((opField w).toNat ∉ [1, 2, 3, 4, 5, 6] ∧ vidField w ≠ 0) := by
  unfold decode
  split
  · next hzero => exact iff_of_true ⟨_, rfl⟩ (.inl hzero)
  next hzero =>
  have hz : zeroField w = 0 := not_not.mp hzero
  split
  case h_9 h0 h1 h2 h3 h4 h5 h6 h7 =>
    simp only [imp_false] at h0 h1 h2 h3 h4 h5 h6 h7
    have hop : (opField w).toNat ≥ 8 := by omega
    exact iff_of_true ⟨_, rfl⟩ (.inr (.inl hop))
  all_goals
    next hop =>
    simp [exists_decodePlain_eq_error, exists_decodeVariant_eq_error, hop, hz]

/-- Settles O2: a row selects the words of its command, from which the uniqueness of the row and the illegal words follow. -/
theorem decodingFollowsTheOpcodeMap : Obligations.DecodingFollowsTheOpcodeMap := by
  intro w
  refine ⟨fun row hrow => row_selects_iff hrow w, fun i hi => operands_of_decode hi,
    fun row hrow row' hrow' h h' => row_unique hrow hrow' h h', illegal_iff_no_row w, illegal_iff_fields w, fun e s he => ?_⟩
  exact ⟨_, Machine.execWord_error he s, rfl, fun h => if_pos h⟩

/-- Settles O24: a word decodes to a COMPUTE exactly where it encodes one, with any variant number. -/
theorem computeWords : Obligations.ComputeWords := by
  intro w
  calc (∃ i, decode w = .ok i ∧ ∃ vid, i = .compute vid)
      ↔ ∃ vid, w = encode (.compute vid) := by simp [decodeInvertsEncode w]
    _ ↔ w &&& 0xFFFFFF0F = encodeFields 6 0 0 := exists_vid_iff

/-- Settles O3: the eleven legal words are the encodings of the commands listed; each illegal word is refused. -/
theorem workedEncodingsDecode : Obligations.WorkedEncodingsDecode := by
  refine ⟨rfl, rfl, rfl, rfl, rfl, rfl, rfl, rfl, rfl, rfl, rfl, ⟨_, rfl⟩, ⟨_, rfl⟩, ⟨_, rfl⟩, ⟨_, rfl⟩⟩

end Sys2Proof

namespace Sys2Proof.Machine

/-! ## The source's named operations (R99) -/

theorem core_run_succ {s t : State} (h : step s = .next t) (n : Nat) :
    Host.Core.run Sys2Proof.core (n + 1) s = Host.Core.run Sys2Proof.core n t := by
  have hcore : Sys2Proof.core.step s = .next t := h
  simp only [Host.Core.run, hcore]

/-- The machine performs the oldest pending actions as a run, one step each, and leaves the later ones pending. -/
theorem core_run_of_runActions {acts rest : List HostAction} {s t : State} (hp : s.pending = acts ++ rest)
    (h : runActions acts { s with pending := rest } = .next t) : Host.Core.run Sys2Proof.core acts.length s = .next t := by
  induction acts generalizing s with
  | nil =>
    obtain rfl : { s with pending := rest } = t := Host.Outcome.next.inj h
    rw [← show s.pending = rest from hp]
    rfl
  | cons act acts ih =>
    obtain ⟨u, hu, hrun⟩ := runActions_cons_eq_next.mp h
    have hact : hostAct act { s with pending := acts ++ rest } = .next { u with pending := acts ++ rest } := by
      rw [hostAct_withPending act { s with pending := rest }, hu]
      rfl
    have hu' : u.pending = rest := pending_of_hostAct hu
    rw [List.length_cons, core_run_succ ((step_cons hp).trans hact)]
    refine ih (s := { u with pending := acts ++ rest }) rfl ?_
    rw [← hrun, ← hu']

theorem pending_of_runActions {acts : List HostAction} {s t : State} (h : runActions acts s = .next t) :
    t.pending = s.pending := by
  induction acts generalizing s with
  | nil =>
    cases h
    rfl
  | cons act acts ih =>
    obtain ⟨u, hu, hrun⟩ := runActions_cons_eq_next.mp h
    exact (ih hrun).trans (pending_of_hostAct hu)

/-- The write of a command's word to `CMD` runs the command (R27, R94). -/
theorem hostAct_issue (i : Instr) (s : State) : hostAct (issue i) s = exec i s := by
  have hword : toWidth 32 (toWidth 64 (encode i)) = encode i := by simp [toWidth]
  rw [issue, hostAct, hostWrite, hword, execWord_ok (decode_encode i)]

theorem runActions_issue {i : Instr} {s u : State} (h : exec i s = .next u) (rest : List HostAction) :
    runActions (issue i :: rest) s = runActions rest u := by
  rw [runActions, hostAct_issue, h]

theorem writeBaddr_baddr_of_lt {s : State} {v : Word} (h : v.toNat < 2 ^ s.cfg.aw) : (writeBaddr s v).baddr = v := by
  apply BitVec.eq_of_toNat_eq
  have hv := v.isLt
  simp only [writeBaddr, toWidth, BitVec.toNat_setWidth, Nat.mod_eq_of_lt h, Nat.mod_eq_of_lt hv]

/-- The two writes describe an acceptable buffer to COMPUTE (R75, R76). -/
theorem bufferAccepted_writes {s : State} {buf len : Word} (hlt : buf.toNat < 2 ^ s.cfg.aw) (hnull : buf = 0 → len = 0)
    (htop : buf.toNat + len.toNat ≤ 2 ^ s.cfg.aw) : BufferAccepted (writeBlen (writeBaddr s buf) len) := by
  rw [BufferAccepted, writeBlen_baddr, writeBaddr_baddr_of_lt hlt]
  exact ⟨hnull, htop⟩

theorem bufferHolds_writes {s : State} {buf len : Word} {B : List Byte} (hlt : buf.toNat < 2 ^ s.cfg.aw)
    (hlen : B.length = len.toNat) (hB : ∀ i (h : i < B.length), memRead s (buf.toNat + i) = some B[i]) :
    BufferHolds (writeBlen (writeBaddr s buf) len) B := by
  rw [BufferHolds, writeBlen_baddr, writeBaddr_baddr_of_lt hlt]
  exact ⟨hlen, hB⟩

/-- COMPUTE of either kind over an accepted buffer that can be read: the result of its bytes, and `FLT` 0 (R134, R138). -/
theorem exec_compute_wholeResult {s : State} {vid : BitVec 4} {P : ParamSet} {B : List Byte} (hs : TablesRight s)
    (hP : s.cfg.variant? vid = some P) (ha : BufferAccepted s) (hB : BufferHolds s B) :
    ∃ t, exec (.compute vid) s = .next t ∧ t.result = wholeResult P B ∧ t.flt = false := by
  cases hk : P.kind with
  | table => exact ⟨_, exec_compute_of_bufferHolds hs hP hk ha hB, by simp [wholeResult, hk], rfl⟩
  | sick =>
    obtain ⟨hn, hr⟩ := (bufferAccepted_iff s).mp ha
    have hc := exec_compute_sick hP hn hr hk
    rw [foldInto_ok ((bufferHolds_iff s B).mp hB)] at hc
    exact ⟨_, hc, by simp [wholeResult, hk], rfl⟩

/-- The whole-buffer operation as a run: what its COMPUTE leaves in `RESULT` is what its last read returns. -/
theorem runActions_wholeBufferOp {s u : State} {vid : BitVec 4} {buf len : Word}
    (h : exec (.compute vid) (writeBlen (writeBaddr s buf) len) = .next u) :
    runActions (wholeBufferOp vid buf len) s = .next { u with rdata := u.result } :=
  runActions_issue h [.read .status, .read .result]

/-- Settles O51: the two writes describe the buffer to COMPUTE, which leaves the checksum in `RESULT` and the stream alone. -/
theorem wholeBufferOperation : Obligations.WholeBufferOperation := by
  intro s vid P buf len B rest hs hp hP hlt hnull htop hlen hB
  have haccepted := bufferAccepted_writes (s := { s with pending := rest }) hlt hnull htop
  have hholds := bufferHolds_writes (s := { s with pending := rest }) hlt hlen hB
  have htables : TablesRight (writeBlen (writeBaddr { s with pending := rest } buf) len) := hs.tables.congr rfl rfl rfl
  obtain ⟨u, hu, hresult, hflt⟩ := exec_compute_wholeResult htables hP haccepted hholds
  obtain ⟨hcrc, hprev, -⟩ := computeLeavesTheStream _ u vid 0 0 hu
  have hrun := runActions_wholeBufferOp hu
  exact ⟨_, core_run_of_runActions hp hrun, hresult, pending_of_runActions hrun, hflt, hcrc, hprev⟩

/-- The incremental operations as runs: the last read returns what STEP leaves in `CRC`. -/
theorem runActions_updateOp {s u : State} {vid : BitVec 4} {crc : Word} {c : Byte}
    (h : exec (.step vid c) (writeCrc s crc) = .next u) :
    runActions (updateOp vid crc c) s = .next { u with rdata := u.crc } :=
  runActions_issue h [.read .crc]

theorem runActions_updateSickOp {s u : State} {vid : BitVec 4} {crc : Word} {c prev : Byte}
    (h : exec (.step vid c) (writePrev (writeCrc s crc) (toWidth 8 (toWidth 64 prev))) = .next u) :
    runActions (updateSickOp vid crc c prev) s = .next { u with rdata := u.crc } :=
  runActions_issue h [.read .crc]

/-- STEP of a `table`-kind variant in a right store is `step` of the key (R150, R152). -/
theorem exec_step_stepByte {s : State} {vid : BitVec 4} {P : ParamSet} (hs : TablesRight s)
    (hP : s.cfg.variant? vid = some P) (hk : P.kind = .table) (c : Byte) :
    exec (.step vid c) s =
      .next (complete (writeCrc (ensureTable s (s.cfg.tid P)) (stepByte P.toKey (readCrc s P.W) c))) := by
  rw [exec_step_table hP hk, hs.slotTable hP hk, stepByte]

/-- Settles O52: STEP reads the register the host has just written, and for the Sick kind the previous byte too, and leaves the
stepped register in `CRC`. -/
theorem incrementalOperations : Obligations.IncrementalOperations := by
  intro s vid P crc c prev rest hs hP
  refine ⟨fun hk hp => ?_, fun hk hp => ?_⟩
  · have hstep := exec_step_stepByte (s := writeCrc { s with pending := rest } crc) (hs.tables.congr rfl rfl rfl) hP hk c
    have hrun := runActions_updateOp hstep
    refine ⟨_, core_run_of_runActions hp hrun, ?_, pending_of_runActions hrun⟩
    simp [readCrc, toWidth]
  · have hrun := runActions_updateSickOp (s := { s with pending := rest }) (crc := crc) (c := c) (prev := prev)
      (exec_step_sick hP hk)
    refine ⟨_, core_run_of_runActions hp hrun, ?_, rfl, pending_of_runActions hrun⟩
    simp [readCrc, toWidth]

end Sys2Proof.Machine

namespace Sys2Proof

theorem Key.eight_le_W (k : Key) : 8 ≤ k.W := by
  cases h : k.width <;> simp [Key.W, h, Width.bits]

/-! ## The words of a command that uses `vid` (R93) -/

/-- The words of a command that uses `vid` alone. -/
theorem wordsAre_vid {mk : BitVec 4 → Instr} {op : BitVec 4} (h : ∀ vid, encode (mk vid) = encodeFields op vid 0) :
    Machine.WordsAre (fun i => ∃ vid, i = mk vid) 0xFFFFFF0F (encodeFields op 0 0) := by
  intro w
  calc (∃ i, decode w = .ok i ∧ ∃ vid, i = mk vid)
      ↔ ∃ vid, w = encodeFields op vid 0 := by simp [decodeInvertsEncode w, h]
    _ ↔ w &&& 0xFFFFFF0F = encodeFields op 0 0 := exists_vid_iff

/-- The words of a command that uses `vid` and `imm8`. -/
theorem wordsAre_vid_imm {mk : BitVec 4 → Byte → Instr} {op : BitVec 4}
    (h : ∀ vid imm8, encode (mk vid imm8) = encodeFields op vid imm8) :
    Machine.WordsAre (fun i => ∃ vid imm8, i = mk vid imm8) 0xFFFF000F (encodeFields op 0 0) := by
  intro w
  calc (∃ i, decode w = .ok i ∧ ∃ vid imm8, i = mk vid imm8)
      ↔ ∃ vid imm8, w = encodeFields op vid imm8 := by
        simp only [decodeInvertsEncode w]
        constructor
        · rintro ⟨_, rfl, vid, imm8, rfl⟩
          exact ⟨vid, imm8, h vid imm8⟩
        · rintro ⟨vid, imm8, rfl⟩
          exact ⟨_, (h vid imm8).symm, vid, imm8, rfl⟩
    _ ↔ w &&& 0xFFFF000F = encodeFields op 0 0 := exists_vid_imm_iff

end Sys2Proof

namespace Sys2Proof.Machine

/-! ## The bit step and the seed, one equation per convention (R110, R111) -/

theorem bitStep_nonreflected {k : Key} (h : k.reflectIn = false) (r : BitVec k.W) :
    bitStep k r = if r.getLsbD (k.W - 1) then r <<< 1 ^^^ k.polynomial else r <<< 1 := by
  simp [bitStep, shl, h]

theorem bitStep_reflected {k : Key} (h : k.reflectIn = true) (r : BitVec k.W) :
    bitStep k r = if r.getLsbD 0 then r >>> 1 ^^^ k.polynomial else r >>> 1 := by
  simp [bitStep, shr, h]

theorem seed_nonreflected {k : Key} (h : k.reflectIn = false) (b : Byte) : seed k b = b.setWidth k.W <<< (k.W - 8) := by
  simp [seed, shl, toWidth, h]

theorem seed_reflected {k : Key} (h : k.reflectIn = true) (b : Byte) : seed k b = b.setWidth k.W := by
  simp [seed, toWidth, h]

/-! ## `build_entry` as a register sequence (R110, R111) -/

theorem eq_iterate_of_succ {α : Type} {f : α → α} {r : Nat → α} (h : ∀ n, r (n + 1) = f (r n)) (n : Nat) :
    r n = f^[n] (r 0) := by
  induction n with
  | zero => rfl
  | succ n ih => rw [h, ih, Function.iterate_succ_apply']

theorem buildEntry_eq_of_sequence {k : Key} {b : Byte} {r : Nat → BitVec k.W} (h0 : r 0 = seed k b)
    (h : ∀ n, r (n + 1) = bitStep k (r n)) : buildEntry k b = r 8 := by
  rw [eq_iterate_of_succ h, h0, buildEntry, eightSteps]

/-- Settles O31: the sequence starts at the seed and each of its steps is the model's bit step. -/
theorem buildEntryNonReflected : Obligations.BuildEntryNonReflected := by
  intro k b r hk h0 hstep
  exact buildEntry_eq_of_sequence (h0.trans (seed_nonreflected hk b).symm)
    fun n => (hstep n).trans (bitStep_nonreflected hk (r n)).symm

/-- Settles O32: the sequence starts at the seed and each of its steps is the model's bit step. -/
theorem buildEntryReflected : Obligations.BuildEntryReflected := by
  intro k b r hk h0 hstep
  exact buildEntry_eq_of_sequence (h0.trans (seed_reflected hk b).symm)
    fun n => (hstep n).trans (bitStep_reflected hk (r n)).symm

/-! ## Linearity over XOR (R113) -/

theorem xor_ite_xor {w : Nat} (a b : Bool) (x y p : BitVec w) :
    (if a ^^ b then (x ^^^ y) ^^^ p else x ^^^ y) = (if a then x ^^^ p else x) ^^^ (if b then y ^^^ p else y) := by
  have hp : x ^^^ p ^^^ (y ^^^ p) = x ^^^ y := by
    calc x ^^^ p ^^^ (y ^^^ p) = x ^^^ y ^^^ (p ^^^ p) := by ac_rfl
      _ = x ^^^ y := by simp
  cases a <;> cases b <;> simp [hp] <;> ac_rfl

/-- The edge bit and the shift are linear, and the polynomial applied twice cancels. -/
theorem bitStep_xor (k : Key) : Function.Semiconj₂ (bitStep k) (· ^^^ ·) (· ^^^ ·) := by
  intro r q
  cases hk : k.reflectIn with
  | false =>
    simp only [bitStep_nonreflected hk, BitVec.getLsbD_xor, BitVec.shiftLeft_xor_distrib]
    exact xor_ite_xor _ _ _ _ _
  | true =>
    simp only [bitStep_reflected hk, BitVec.getLsbD_xor, BitVec.ushiftRight_xor_distrib]
    exact xor_ite_xor _ _ _ _ _

theorem seed_xor (k : Key) (a b : Byte) : seed k (a ^^^ b) = seed k a ^^^ seed k b := by
  cases hk : k.reflectIn with
  | false => simp only [seed_nonreflected hk, BitVec.setWidth_xor, BitVec.shiftLeft_xor_distrib]
  | true => simp only [seed_reflected hk, BitVec.setWidth_xor]

theorem buildEntry_xor (k : Key) (a b : Byte) : buildEntry k (a ^^^ b) = buildEntry k a ^^^ buildEntry k b := by
  simp only [buildEntry, seed_xor]
  exact (bitStep_xor k).iterate 8 (seed k a) (seed k b)

@[simp] theorem buildEntry_zero (k : Key) : buildEntry k 0 = 0 := by
  have h := buildEntry_xor k 0 0
  rwa [BitVec.xor_self, BitVec.xor_self] at h

/-! ## The polynomial's own entry (R113): one bit travels to the edge in seven steps -/

theorem bitStep_twoPow_nonreflected {k : Key} (hk : k.reflectIn = false) {i : Nat} (hi : i + 1 < k.W) :
    bitStep k (BitVec.twoPow k.W i) = BitVec.twoPow k.W (i + 1) := by
  have hbelow : i ≠ k.W - 1 := by omega
  have hedge : (BitVec.twoPow k.W i).getLsbD (k.W - 1) = false := by simp [BitVec.getLsbD_twoPow, hbelow]
  rw [bitStep_nonreflected hk, hedge, BitVec.twoPow_eq, BitVec.twoPow_eq, BitVec.shiftLeft_add]
  rfl

theorem bitStep_top_nonreflected {k : Key} (hk : k.reflectIn = false) :
    bitStep k (BitVec.twoPow k.W (k.W - 1)) = k.polynomial := by
  have hW := k.eight_le_W
  have hlt : k.W - 1 < k.W := by omega
  have hedge : (BitVec.twoPow k.W (k.W - 1)).getLsbD (k.W - 1) = true := by
    simp only [BitVec.getLsbD_twoPow, hlt, decide_true, Bool.and_self]
  have hout : BitVec.twoPow k.W (k.W - 1) <<< 1 = 0 := by
    rw [BitVec.twoPow_eq, ← BitVec.shiftLeft_add]
    exact BitVec.shiftLeft_eq_zero (by omega)
  simp [bitStep_nonreflected hk, hedge, hout]

theorem iterate_bitStep_nonreflected {k : Key} (hk : k.reflectIn = false) (n : Nat) {i : Nat} (hi : i + n < k.W) :
    (bitStep k)^[n] (BitVec.twoPow k.W i) = BitVec.twoPow k.W (i + n) := by
  induction n with
  | zero => rfl
  | succ n ih => rw [Function.iterate_succ_apply', ih (by omega), bitStep_twoPow_nonreflected hk (i := i + n) hi, Nat.add_assoc]

theorem bitStep_twoPow_reflected {k : Key} (hk : k.reflectIn = true) {i : Nat} (hi : i + 1 < k.W) :
    bitStep k (BitVec.twoPow k.W (i + 1)) = BitVec.twoPow k.W i := by
  have hedge : (BitVec.twoPow k.W (i + 1)).getLsbD 0 = false := by simp [BitVec.getLsbD_twoPow]
  have hshift : BitVec.twoPow k.W (i + 1) >>> 1 = BitVec.twoPow k.W i := by
    apply BitVec.eq_of_getLsbD_eq
    intro j hj
    simp only [BitVec.getLsbD_ushiftRight, BitVec.getLsbD_twoPow]
    grind
  simp [bitStep_reflected hk, hedge, hshift]

theorem bitStep_bottom_reflected {k : Key} (hk : k.reflectIn = true) : bitStep k (BitVec.twoPow k.W 0) = k.polynomial := by
  have hpos : 0 < k.W := Nat.lt_of_lt_of_le (by decide) k.eight_le_W
  have hedge : (BitVec.twoPow k.W 0).getLsbD 0 = true := by simp [hpos]
  have hout : BitVec.twoPow k.W 0 >>> 1 = 0 := by
    apply BitVec.eq_of_getLsbD_eq
    intro j hj
    simp [BitVec.getLsbD_twoPow, show 0 ≠ 1 + j by omega]
  simp [bitStep_reflected hk, hedge, hout]

theorem iterate_bitStep_reflected {k : Key} (hk : k.reflectIn = true) (n : Nat) {i : Nat} (hi : i + n < k.W) :
    (bitStep k)^[n] (BitVec.twoPow k.W (i + n)) = BitVec.twoPow k.W i := by
  induction n with
  | zero => rfl
  | succ n ih =>
    rw [Function.iterate_succ_apply, ← Nat.add_assoc, bitStep_twoPow_reflected hk (by omega), ih (by omega)]

theorem buildEntry_polynomial_nonreflected {k : Key} (hk : k.reflectIn = false) : buildEntry k 1 = k.polynomial := by
  have hW := k.eight_le_W
  have hseed : seed k 1 = BitVec.twoPow k.W (k.W - 8) := by
    rw [seed_nonreflected hk, BitVec.twoPow_eq]
    congr 1
    simp [hW]
  have hseven : k.W - 8 + 7 = k.W - 1 := by omega
  rw [buildEntry, eightSteps, hseed, Function.iterate_succ_apply', iterate_bitStep_nonreflected hk 7 (by omega), hseven,
    bitStep_top_nonreflected hk]

theorem buildEntry_polynomial_reflected {k : Key} (hk : k.reflectIn = true) : buildEntry k 0x80 = k.polynomial := by
  have hW := k.eight_le_W
  have hseed : seed k 0x80 = BitVec.twoPow k.W (0 + 7) := by
    rw [seed_reflected hk]
    apply BitVec.eq_of_toNat_eq
    simp
  rw [buildEntry, eightSteps, hseed, Function.iterate_succ_apply', iterate_bitStep_reflected hk 7 (by omega),
    bitStep_bottom_reflected hk]

/-- Settles O33: eight bit steps are linear, so entry 0 cancels itself; the seed of the own entry is one bit, which reaches the
edge at the eighth step. -/
theorem tableLaws : Obligations.TableLaws := by
  intro k
  simp only [tableAt_eq]
  exact ⟨buildEntry_zero k, buildEntry_polynomial_nonreflected, buildEntry_polynomial_reflected, buildEntry_xor k⟩

/-! ## `ensure_table` and the commands that call it (R114 to R116) -/

theorem ensureTable_of_slotValid {s : State} {n : Nat} (h : slotValid s n = true) : ensureTable s n = s := if_pos h

/-- `SlotEnsured` reads the table store alone. -/
theorem SlotEnsured.congr {s t u : State} {n : Nat} {k : Key} (h : SlotEnsured s t n k) (hv : u.tvalid = t.tvalid)
    (he : u.tent = t.tent) : SlotEnsured s u n k := by
  have hvalid : ∀ m, slotValid u m = slotValid t m := fun m => by simp [slotValid, hv]
  have hentry : ∀ m i, entry u m i = entry t m i := fun m i => by simp [entry, he]
  constructor
  · exact (hvalid n).trans h.valid
  · exact fun i => (hentry n i).trans (h.built i)
  · intro m hm
    obtain ⟨hv', he'⟩ := h.others m hm
    exact ⟨(hvalid m).trans hv', fun i => (hentry m i).trans (he' i)⟩

/-- A command other than SRESET that changes the table store names a valid variant of kind `table`. -/
theorem tableVariant_of_store_change {i : Instr} {s t : State} (h : exec i s = .next t) (hi : i ≠ .sreset)
    (hne : t.tvalid ≠ s.tvalid ∨ t.tent ≠ s.tent) :
    ∃ v P, i.vid? = some v ∧ s.cfg.variant? v = some P ∧ P.kind = .table := by
  have hchanged : ¬ (t.tvalid = s.tvalid ∧ t.tent = s.tent) := not_and_or.mpr hne
  rcases exec_cases i s with ⟨hr, -⟩ | ⟨f, -, he⟩ | ⟨_, _, _, he⟩ | ⟨v, P, _, _, hvid, hv, hk, -⟩ | ⟨_, _, -, he⟩ |
      ⟨v, P, _, rfl, hv, hk, -⟩
  · exact absurd hr hi
  · cases he.symm.trans h
    exact absurd ⟨rfl, rfl⟩ hchanged
  · cases he.symm.trans h
    exact absurd ⟨rfl, rfl⟩ hchanged
  · exact ⟨v, P, hvid, hv, hk⟩
  · cases he.symm.trans h
    exact absurd ⟨rfl, rfl⟩ hchanged
  · exact ⟨v, P, rfl, hv, hk⟩

/-- Settles O40: `ensure_table` builds a slot at most once, and the commands that write the table store all name a variant of
kind `table`. -/
theorem ensureTableBuildsOnce : Obligations.EnsureTableBuildsOnce := by
  refine ⟨fun s n k hn hk => ⟨ensureTable_slotEnsured hn hk, ensureTable_frame s n, ensureTable_of_slotValid⟩, ?_⟩
  intro i s t h hi hne
  obtain ⟨-, -, -, hcalls⟩ := writers_of_exec h hi
  exact ⟨hcalls hne, tableVariant_of_store_change h hi hne⟩

/-- The slot of a `table`-kind variant after `ensure_table` (R52, R114). -/
theorem slotEnsured_tid {s : State} {vid : BitVec 4} {P : ParamSet} (h : s.cfg.variant? vid = some P) (hk : P.kind = .table) :
    SlotEnsured s (ensureTable s (s.cfg.tid P)) (s.cfg.tid P) P.toKey :=
  ensureTable_slotEnsured (Config.tid_lt h hk) (Config.keys_tid h hk)

/-- Settles O17: with a `table`-kind variant TBUILD is `ensure_table` of its slot and the completion. -/
theorem tbuildEnsuresTheTable : Obligations.TbuildEnsuresTheTable := by
  refine ⟨fun s vid => ⟨exec_tbuild_none, fun P hP => ?_⟩, wordsAre_vid (op := 1) fun _ => rfl⟩
  obtain ⟨hv, hk⟩ := Config.tableVariant?_eq_some.mp hP
  refine ⟨_, exec_tbuild_some hP, (slotEnsured_tid hv hk).congr rfl rfl, ?_, fun hvalid => ?_⟩
  · exact congrArg complete (ensureTable_frame s (s.cfg.tid P))
  · rw [ensureTable_of_slotValid hvalid, complete]

/-- Settles O18: TREAD reads the slot that `ensure_table` leaves, which in a right store holds the key's table. -/
theorem treadReadsTheEntry : Obligations.TreadReadsTheEntry := by
  refine ⟨fun s vid index => ⟨exec_tread_none, fun P hP => ?_⟩, wordsAre_vid_imm (op := 2) fun _ _ => rfl⟩
  obtain ⟨hv, hk⟩ := Config.tableVariant?_eq_some.mp hP
  refine ⟨_, exec_tread_some hP, (slotEnsured_tid hv hk).congr rfl rfl, ?_, fun hs => ?_⟩
  · exact congrArg (fun t => complete (writeResult t _)) (ensureTable_frame s (s.cfg.tid P))
  · have hread : slotTable (ensureTable s (s.cfg.tid P)) (s.cfg.tid P) P.W index = buildEntry P.toKey index := by
      rw [hs.tables.slotTable hv hk, tableAt_eq]
    refine ⟨congrArg (toWidth 64) hread, ?_⟩
    rintro rfl
    rw [complete_result, writeResult_result, hread, buildEntry_zero]
    simp [toWidth]

end Sys2Proof.Machine

namespace Sys2Proof.Machine

/-! ## COMPUTE over a readable buffer (R134 to R138) -/

/-- Settles O22: over an accepted buffer COMPUTE is `ensure_table` of the variant's slot, `compute` of the bytes, and the
completion. -/
theorem computeFoldsTheBuffer : Obligations.ComputeFoldsTheBuffer := by
  intro s vid P B hs hP hk ha hB
  refine ⟨_, exec_compute_of_bufferHolds hs.tables hP hk ha hB, (slotEnsured_tid hP hk).congr rfl rfl, ?_⟩
  exact congrArg (fun t => complete (writeResult t (compute P B))) (ensureTable_frame s (s.cfg.tid P))

/-- COMPUTE of a Sick-kind variant over an accepted buffer that can be read completes with `compute_sick` of its bytes; it
calls no `ensure_table` (R138). -/
theorem exec_compute_sick_of_bufferHolds {s : State} {vid : BitVec 4} {P : ParamSet} {B : List Byte}
    (hP : s.cfg.variant? vid = some P) (hk : P.kind = .sick) (ha : BufferAccepted s) (hB : BufferHolds s B) :
    exec (.compute vid) s = .next (complete (writeResult s (computeSick P B))) := by
  obtain ⟨hn, hr⟩ := (bufferAccepted_iff s).mp ha
  rw [exec_compute_sick hP hn hr hk, foldInto_ok ((bufferHolds_iff s B).mp hB)]

/-- Settles O23: for the Sick kind COMPUTE is the loop and the completion alone, and its fold starts from previous byte 0. -/
theorem computeSickFoldsTheBuffer : Obligations.ComputeSickFoldsTheBuffer := by
  exact ⟨fun s vid P B hP hk ha hB => exec_compute_sick_of_bufferHolds hP hk ha hB, fun P B => rfl⟩

/-- Settles O27: in either state `RESULT` is the one whole-buffer result of the Parameter Set and the bytes. -/
theorem computeIsDeterministic : Obligations.ComputeIsDeterministic := by
  intro s s' vid vid' P B hs hs' hP hP' ha ha' hB hB'
  obtain ⟨t, ht, hresult, hflt⟩ := exec_compute_wholeResult hs.tables hP ha hB
  obtain ⟨t', ht', hresult', -⟩ := exec_compute_wholeResult hs'.tables hP' ha' hB'
  exact ⟨t, t', ht, ht', hresult.trans hresult'.symm, hflt⟩

/-! ## The empty buffer (R135) -/

/-- The empty buffer is accepted at every `BADDR` the register can hold (R24, R76). -/
theorem bufferAccepted_of_blen_zero {s : State} (hs : s.Inv) (h : s.blen = 0) : BufferAccepted s := by
  refine ⟨fun _ => h, ?_⟩
  simpa [h] using hs.baddr.le

theorem bufferHolds_nil_of_blen_zero {s : State} (h : s.blen = 0) : BufferHolds s [] := by
  simp [BufferHolds, h]

theorem compute_nil (P : ParamSet) : compute P [] = finalize P P.init := rfl

/-- A Sick-kind register is 16 bits wide (R51), so that it enters and leaves the fold unchanged. -/
theorem computeSick_nil {P : ParamSet} (h : P.width = .w16) : computeSick P [] = finalize P P.init := by
  have hW : P.W ≤ 16 := by simp [ParamSet.W, h, Width.bits]
  have hinit : toWidth P.W (toWidth 16 P.init) = P.init := by
    rw [toWidth, toWidth, BitVec.setWidth_setWidth_of_le _ hW, BitVec.setWidth_eq]
  exact congrArg (finalize P) hinit

/-- Settles O25: the empty buffer is always accepted and holds no byte, so that no fold step is taken for either kind. -/
theorem emptyBufferGivesInit : Obligations.EmptyBufferGivesInit := by
  intro s vid P hs hP hlen
  have ha := bufferAccepted_of_blen_zero hs hlen
  have hB := bufferHolds_nil_of_blen_zero hlen
  cases hk : P.kind with
  | table =>
    obtain ⟨t, ht, hslot, hframe⟩ := computeFoldsTheBuffer s vid P [] hs hP hk ha hB
    exact ⟨t, ht, congrArg State.flt hframe, congrArg State.result hframe, fun _ => hslot.valid⟩
  | sick =>
    have ht := exec_compute_sick_of_bufferHolds hP hk ha hB
    rw [computeSick_nil (Config.sick_width hs.cfg hP hk)] at ht
    exact ⟨_, ht, rfl, rfl, nofun⟩

/-! ## `fold_byte` and `finalize` (R130 to R132) -/

theorem foldByte_nonreflected {k : Key} (h : k.reflectIn = false) (T : Byte → BitVec k.W) (reg : BitVec k.W) (c : Byte) :
    foldByte k T reg c = T (topByte reg ^^^ c) ^^^ reg <<< 8 := by
  simp [foldByte, shl, h]

theorem foldByte_reflected {k : Key} (h : k.reflectIn = true) (T : Byte → BitVec k.W) (reg : BitVec k.W) (c : Byte) :
    foldByte k T reg c = T (lowByte reg ^^^ c) ^^^ reg >>> 8 := by
  simp [foldByte, shr, h]

/-- At width 8 the top byte is the register, as the low byte is. -/
theorem topByte_eq_lowByte {w : Nat} (h : w = 8) (r : BitVec w) : topByte r = lowByte r := by
  subst h
  exact (BitVec.setWidth_eq_extractLsb' le_rfl).symm

/-- At width 8 nothing of the register is left after the shift, in either convention. -/
theorem foldByte_of_width_8 {k : Key} (hW : k.W = 8) (T : Byte → BitVec k.W) (reg : BitVec k.W) (c : Byte) :
    foldByte k T reg c = T (lowByte reg ^^^ c) := by
  cases hk : k.reflectIn with
  | false =>
    rw [foldByte_nonreflected hk, topByte_eq_lowByte hW, BitVec.shiftLeft_eq_zero hW.le, BitVec.xor_zero]
  | true =>
    rw [foldByte_reflected hk, BitVec.ushiftRight_eq_zero hW.le, BitVec.xor_zero]

/-- Settles O35: one equation per convention, and at width 8 the shifted term vanishes. -/
theorem foldByteOfBothConventions : Obligations.FoldByteOfBothConventions := by
  intro k T reg c
  refine ⟨fun hk => foldByte_nonreflected hk T reg c, fun hk => foldByte_reflected hk T reg c, fun hw => ?_⟩
  exact foldByte_of_width_8 (by simp [Key.W, hw, Width.bits]) T reg c

theorem getLsbD_bitrev {w i : Nat} (h : i < w) (r : BitVec w) : (bitrev r).getLsbD i = r.getLsbD (w - 1 - i) := by
  rw [bitrev, BitVec.getLsbD_reverse, BitVec.getMsbD_eq_getLsbD, decide_eq_true h, Bool.true_and]

/-- Settles O36: below the width bit `i` of the reversal is bit `W-1-i`, and XOR is taken bit by bit. -/
theorem finalizeBitByBit : Obligations.FinalizeBitByBit := by
  intro P reg i hi
  rw [finalize, BitVec.getLsbD_xor]
  by_cases hflags : P.reflectOut ≠ P.reflectIn
  · rw [if_pos hflags, if_pos hflags, getLsbD_bitrev hi]
  · rw [if_neg hflags, if_neg hflags]

/-! ## The table fold as eight bit steps (R139)

Eight bit steps are linear. The register is the seed of its edge byte XORed with a rest whose edge byte is clear; the seed's
steps give the table entry, and the rest is only shifted. -/

/-- While no set bit reaches the edge, a bit step is a shift. -/
theorem iterate_bitStep_eq_shiftLeft {k : Key} (hk : k.reflectIn = false) {n : Nat} {r : BitVec k.W}
    (hr : ∀ i < n, r.getLsbD (k.W - 1 - i) = false) : (bitStep k)^[n] r = r <<< n := by
  induction n with
  | zero => simp
  | succ n ih =>
    have hedge : (r <<< n).getLsbD (k.W - 1) = false := by simp [BitVec.getLsbD_shiftLeft, hr n n.lt_succ_self]
    rw [Function.iterate_succ_apply', ih fun i hi => hr i (hi.trans n.lt_succ_self), bitStep_nonreflected hk, hedge,
      BitVec.shiftLeft_add]
    rfl

theorem iterate_bitStep_eq_ushiftRight {k : Key} (hk : k.reflectIn = true) {n : Nat} {r : BitVec k.W}
    (hr : ∀ i < n, r.getLsbD i = false) : (bitStep k)^[n] r = r >>> n := by
  induction n with
  | zero => simp
  | succ n ih =>
    have hedge : (r >>> n).getLsbD 0 = false := by simp [BitVec.getLsbD_ushiftRight, hr n n.lt_succ_self]
    rw [Function.iterate_succ_apply', ih fun i hi => hr i (hi.trans n.lt_succ_self), bitStep_reflected hk, hedge,
      BitVec.shiftRight_add]
    rfl

theorem eightSteps_xor (k : Key) (r q : BitVec k.W) : eightSteps k (r ^^^ q) = eightSteps k r ^^^ eightSteps k q :=
  (bitStep_xor k).iterate 8 r q

/-- Splitting off the seed of a byte `b`: what is left of the register takes its eight steps apart from the entry of `b`. -/
theorem eightSteps_eq_buildEntry_xor (k : Key) (r : BitVec k.W) (b : Byte) :
    eightSteps k r = buildEntry k b ^^^ eightSteps k (r ^^^ seed k b) := by
  rw [buildEntry, ← eightSteps_xor, BitVec.xor_comm r, ← BitVec.xor_assoc, BitVec.xor_self, BitVec.zero_xor]

/-- The seed of the top byte has that byte's bits in their places in the register. -/
theorem getLsbD_seed_topByte {k : Key} (hk : k.reflectIn = false) (r : BitVec k.W) {j : Nat} (hj : k.W - 8 ≤ j) (hlt : j < k.W) :
    (seed k (topByte r)).getLsbD j = r.getLsbD j := by
  have hin : j - (k.W - 8) < 8 := by omega
  have hplace : k.W - 8 + (j - (k.W - 8)) = j := by omega
  have hnot : ¬ j < k.W - 8 := by omega
  simp [seed_nonreflected hk, topByte, hplace, hlt, hnot, hin]

theorem getLsbD_seed_lowByte {k : Key} (hk : k.reflectIn = true) (r : BitVec k.W) {j : Nat} (hj : j < 8) :
    (seed k (lowByte r)).getLsbD j = r.getLsbD j := by
  have hlt : j < k.W := hj.trans_le k.eight_le_W
  simp only [seed_reflected hk, lowByte, BitVec.getLsbD_setWidth, hj, hlt, decide_true, Bool.true_and]

theorem seed_shiftLeft_nonreflected {k : Key} (hk : k.reflectIn = false) (b : Byte) : seed k b <<< 8 = 0#k.W := by
  rw [seed_nonreflected hk, ← BitVec.shiftLeft_add]
  exact BitVec.shiftLeft_eq_zero (by omega)

theorem seed_ushiftRight_reflected {k : Key} (hk : k.reflectIn = true) (b : Byte) : seed k b >>> 8 = 0#k.W := by
  apply BitVec.eq_of_getLsbD_eq
  intro i _
  simp [seed_reflected hk]

theorem eightSteps_nonreflected {k : Key} (hk : k.reflectIn = false) (r : BitVec k.W) :
    eightSteps k r = buildEntry k (topByte r) ^^^ r <<< 8 := by
  have hW := k.eight_le_W
  have hclear : ∀ i < 8, (r ^^^ seed k (topByte r)).getLsbD (k.W - 1 - i) = false := by
    intro i hi
    rw [BitVec.getLsbD_xor, getLsbD_seed_topByte hk r (by omega) (by omega), Bool.xor_self]
  rw [eightSteps_eq_buildEntry_xor k r (topByte r), eightSteps, iterate_bitStep_eq_shiftLeft hk hclear,
    BitVec.shiftLeft_xor_distrib, seed_shiftLeft_nonreflected hk, BitVec.xor_zero]

theorem eightSteps_reflected {k : Key} (hk : k.reflectIn = true) (r : BitVec k.W) :
    eightSteps k r = buildEntry k (lowByte r) ^^^ r >>> 8 := by
  have hclear : ∀ i < 8, (r ^^^ seed k (lowByte r)).getLsbD i = false := by
    intro i hi
    rw [BitVec.getLsbD_xor, getLsbD_seed_lowByte hk r hi, Bool.xor_self]
  rw [eightSteps_eq_buildEntry_xor k r (lowByte r), eightSteps, iterate_bitStep_eq_ushiftRight hk hclear,
    BitVec.ushiftRight_xor_distrib, seed_ushiftRight_reflected hk, BitVec.xor_zero]

/-- `step` of a byte is eight bit steps of the register XORed with the byte's seed. -/
theorem stepByte_eq_eightSteps (k : Key) (reg : BitVec k.W) (c : Byte) : stepByte k reg c = eightSteps k (reg ^^^ seed k c) := by
  rw [eightSteps_xor, ← buildEntry, stepByte]
  cases hk : k.reflectIn with
  | false =>
    rw [foldByte_nonreflected hk, eightSteps_nonreflected hk, tableAt_eq, buildEntry_xor]
    ac_rfl
  | true =>
    rw [foldByte_reflected hk, eightSteps_reflected hk, tableAt_eq, buildEntry_xor]
    ac_rfl

/-- Settles O34: the bit step spelt out there is the model's `bitStep`, and the byte in its place is its `seed`. -/
theorem tableFoldIsEightBitSteps : Obligations.TableFoldIsEightBitSteps := by
  intro k reg c
  exact stepByte_eq_eightSteps k reg c

end Sys2Proof.Machine

namespace Sys2Proof.Machine

/-! ## The commands of a stream (R151 to R153) -/

/-- Settles O19: the two kinds differ in what they do to `PREV` alone. -/
theorem cinitStartsAStream : Obligations.CinitStartsAStream := by
  refine ⟨fun s vid => ⟨exec_cinit_none, fun P hP => ?_⟩, wordsAre_vid (op := 3) fun _ => rfl⟩
  cases hk : P.kind with
  | table => exact exec_cinit_table hP hk
  | sick => exact exec_cinit_sick hP hk

/-- Settles O20: STEP of a `table`-kind variant folds with the slot that `ensure_table` leaves, which in a right store holds the
key's table; the Sick kind calls no `ensure_table`. -/
theorem stepAdvancesTheRegister : Obligations.StepAdvancesTheRegister := by
  refine ⟨fun s vid c => ⟨exec_step_none, fun P hP hk => ?_, fun P hP hk => exec_step_sick hP hk⟩,
    wordsAre_vid_imm (op := 4) fun _ _ => rfl⟩
  refine ⟨_, exec_step_table hP hk, (slotEnsured_tid hP hk).congr rfl rfl, ?_, fun hs => ?_⟩
  · exact congrArg (fun t => complete (writeCrc t _)) (ensureTable_frame s (s.cfg.tid P))
  · rw [complete_crc, writeCrc_crc, hs.tables.slotTable hP hk]
    rfl

/-- Settles O21: CFINAL of either kind is `finalize` of the register, put in `RESULT`, and the completion. -/
theorem cfinalFinalisesTheStream : Obligations.CfinalFinalisesTheStream := by
  exact ⟨fun s vid => ⟨exec_cfinal_none, fun P hP => exec_cfinal_some hP⟩, wordsAre_vid (op := 5) fun _ => rfl⟩

/-- Settles O46: of the Parameter Set, STEP of a `table`-kind variant uses the width, the slot and the fold, which are the
key's. -/
theorem stepDependsOnTheKeyAlone : Obligations.StepDependsOnTheKeyAlone := by
  rintro s v v' ⟨k, _, _, _, _⟩ ⟨k', _, _, _, _⟩ c hP hP' hkey
  obtain ⟨hv, hk⟩ := Config.tableVariant?_eq_some.mp hP
  obtain ⟨hv', hk'⟩ := Config.tableVariant?_eq_some.mp hP'
  obtain rfl : k = k' := hkey
  exact (exec_step_table hv hk).trans (exec_step_table hv' hk').symm

/-! ## `CRC` read after it is written (R22) -/

/-- A register of width `w` reads back at a width `n` of the block as it would be adapted to `n` at once. -/
theorem readCrc_writeCrc {n w : Nat} (hn : n ≤ 64) (s : State) (v : BitVec w) : readCrc (writeCrc s v) n = toWidth n v :=
  BitVec.setWidth_setWidth_of_le v hn

/-- At its own width a register reads back as it was written. -/
theorem readCrc_writeCrc_same (k : Key) (s : State) (v : BitVec k.W) : readCrc (writeCrc s v) k.W = v :=
  toWidth_toWidth k v

/-! ## A stream between other commands (R155) -/

/-- In right stores, what STEP leaves in `CRC`, `PREV` and `FLT` is a function of `CRC`, `PREV` and the configuration. -/
theorem exec_step_stream_congr {s t u : State} {vid : BitVec 4} {c : Byte} (hs : TablesRight s) (ht : TablesRight t)
    (hcfg : t.cfg = s.cfg) (hcrc : t.crc = s.crc) (hprev : t.prev = s.prev) (hu : exec (.step vid c) s = .next u) :
    ∃ u', exec (.step vid c) t = .next u' ∧ u'.crc = u.crc ∧ u'.prev = u.prev ∧ u'.flt = u.flt := by
  cases hP : s.cfg.variant? vid with
  | none =>
    rw [exec_step_none hP] at hu
    cases hu
    exact ⟨_, exec_step_none (hcfg ▸ hP), hcrc, hprev, rfl⟩
  | some P =>
    cases hk : P.kind with
    | table =>
      rw [exec_step_stepByte hs hP hk] at hu
      cases hu
      have ht' := exec_step_stepByte ht (hcfg ▸ hP) hk c
      exact ⟨_, ht', by simp [readCrc, hcrc], by simp [hprev], by simp⟩
    | sick =>
      rw [exec_step_sick hP hk] at hu
      cases hu
      exact ⟨_, exec_step_sick (hcfg ▸ hP) hk, by simp [readCrc, hcrc, hprev], rfl, rfl⟩

/-- Only CINIT, STEP and SRESET write `CRC` or `PREV`. -/
theorem stream_kept_of_exec {i : Instr} {s t : State} (h : exec i s = .next t) (hreset : i ≠ .sreset)
    (hi : ¬ ((∃ v, i = .cinit v) ∨ ∃ v c, i = .step v c)) : t.crc = s.crc ∧ t.prev = s.prev := by
  obtain ⟨hcrc, hprev, -, -⟩ := writers_of_exec h hreset
  exact ⟨not_not.mp (mt hcrc hi), not_not.mp fun hne => hi (hprev hne).1⟩

/-- Settles O45: none of the five commands writes `CRC` or `PREV`, and the store they leave is right, so STEP reads the same
table after them. -/
theorem streamIsUndisturbed : Obligations.StreamIsUndisturbed := by
  intro s t u i vid c hs ht hi hu
  obtain ⟨hreset, hwriter⟩ : i ≠ .sreset ∧ ¬ ((∃ v, i = .cinit v) ∨ ∃ v c, i = .step v c) := by
    rcases hi with ⟨v, rfl⟩ | ⟨v, b, rfl⟩ | ⟨v, rfl⟩ | ⟨v, rfl⟩ | rfl <;> simp
  obtain ⟨hcrc, hprev⟩ := stream_kept_of_exec ht hreset hwriter
  exact ⟨hcrc, hprev, exec_step_stream_congr hs.tables (hs.of_exec ht).tables (exec_cfg ht) hcrc hprev hu⟩

/-! ## A stream is a whole-buffer computation (R154) -/

theorem execAll_cons {i : Instr} {s t : State} (h : exec i s = .next t) (rest : List Instr) :
    execAll (i :: rest) s = execAll rest t := by
  rw [execAll, h]

theorem execAll_append {is : List Instr} {s t : State} (h : execAll is s = .next t) (rest : List Instr) :
    execAll (is ++ rest) s = execAll rest t := by
  induction is generalizing s with
  | nil =>
    cases h
    rfl
  | cons i is ih =>
    obtain ⟨u, hu⟩ := exec_next i s
    rw [execAll_cons hu] at h
    rw [List.cons_append, execAll_cons hu, ih h]

/-- What the next STEP of a stream needs of this one: the stepped register, a right store and the configuration. -/
theorem exec_step_table_right {s : State} {vid : BitVec 4} {P : ParamSet} (hs : TablesRight s)
    (hP : s.cfg.variant? vid = some P) (hk : P.kind = .table) (c : Byte) :
    ∃ t, exec (.step vid c) s = .next t ∧ TablesRight t ∧ t.cfg = s.cfg
      ∧ readCrc t P.W = stepByte P.toKey (readCrc s P.W) c := by
  have hright := hs.ensureTable (Config.tid_lt hP hk) (Config.keys_tid hP hk)
  refine ⟨_, exec_step_stepByte hs hP hk c, hright.congr rfl rfl rfl, ?_, ?_⟩
  · rw [complete_cfg, writeCrc_cfg, ensureTable_cfg]
  · exact readCrc_writeCrc_same P.toKey (ensureTable s (s.cfg.tid P)) _

/-- One STEP per byte folds the bytes into the register with `step` of the key, from a right store (R150, R152). -/
theorem execAll_step_table {s : State} {vid : BitVec 4} {P : ParamSet} (hs : TablesRight s) (hP : s.cfg.variant? vid = some P)
    (hk : P.kind = .table) (B : List Byte) :
    ∃ t, execAll (B.map (.step vid)) s = .next t ∧ t.cfg = s.cfg
      ∧ readCrc t P.W = B.foldl (stepByte P.toKey) (readCrc s P.W) := by
  induction B generalizing s with
  | nil => exact ⟨s, rfl, rfl, rfl⟩
  | cons c B ih =>
    obtain ⟨u, hu, hright, hcfg, hreg⟩ := exec_step_table_right hs hP hk c
    obtain ⟨t, ht, htcfg, htreg⟩ := ih hright (hcfg ▸ hP)
    refine ⟨t, (execAll_cons hu _).trans ht, htcfg.trans hcfg, ?_⟩
    rw [htreg, hreg, List.foldl_cons]

/-- One STEP per byte is the Sick fold of the register and the previous byte (R138, R156). -/
theorem execAll_step_sick {s : State} {vid : BitVec 4} {P : ParamSet} (hP : s.cfg.variant? vid = some P) (hk : P.kind = .sick)
    (B : List Byte) :
    ∃ t, execAll (B.map (.step vid)) s = .next t ∧ t.cfg = s.cfg
      ∧ (readCrc t 16, t.prev) = B.foldl (sickFold Config.sickStep) (readCrc s 16, s.prev) := by
  induction B generalizing s with
  | nil => exact ⟨s, rfl, rfl, rfl⟩
  | cons c B ih =>
    have hstep := exec_step_sick (c := c) hP hk
    obtain ⟨t, ht, htcfg, htreg⟩ := ih (s := complete (writePrev (writeCrc s (Config.sickStep (readCrc s 16) c s.prev)) c)) hP
    refine ⟨t, (execAll_cons hstep _).trans ht, htcfg, ?_⟩
    rw [htreg, List.foldl_cons]
    simp [sickFold, readCrc, toWidth]

/-- A stream ends with `finalize` of the register its bytes leave. -/
theorem execAll_streamCommands {s s' t : State} {vid : BitVec 4} {P : ParamSet} {B : List Byte}
    (hinit : exec (.cinit vid) s = .next s') (hsteps : execAll (B.map (.step vid)) s' = .next t)
    (hP : t.cfg.variant? vid = some P) :
    execAll (streamCommands vid B) s = .next (complete (writeResult t (finalize P (readCrc t P.W)))) := by
  rw [streamCommands, execAll_cons hinit, execAll_append hsteps, execAll_cons (exec_cfinal_some hP), execAll]

/-- The stream of a `table`-kind variant starts from `init` and folds as `compute` does (R133). -/
theorem execAll_streamCommands_compute {s : State} {vid : BitVec 4} {P : ParamSet} (hs : s.Inv)
    (hP : s.cfg.variant? vid = some P) (hk : P.kind = .table) (B : List Byte) :
    ∃ t, execAll (streamCommands vid B) s = .next t ∧ t.result = toWidth 64 (compute P B) ∧ t.flt = false := by
  have hinit := exec_cinit_table hP hk
  obtain ⟨t, ht, hcfg, hreg⟩ := execAll_step_table (hs.of_exec hinit).tables hP hk B
  refine ⟨_, execAll_streamCommands hinit ht (hcfg ▸ hP), ?_, rfl⟩
  have hstart : readCrc (complete (writeCrc s P.init)) P.W = P.init := readCrc_writeCrc_same P.toKey s P.init
  rw [complete_result, writeResult_result, hreg, hstart]
  rfl

/-- The stream of a Sick-kind variant starts from `init` and previous byte 0 and folds as `compute_sick` does (R138); the
variant is 16 bits wide (R51), as the fold's register is. -/
theorem execAll_streamCommands_computeSick {s : State} {vid : BitVec 4} {P : ParamSet} (hs : s.Inv)
    (hP : s.cfg.variant? vid = some P) (hk : P.kind = .sick) (B : List Byte) :
    ∃ t, execAll (streamCommands vid B) s = .next t ∧ t.result = toWidth 64 (computeSick P B) ∧ t.flt = false := by
  have hinit := exec_cinit_sick hP hk
  obtain ⟨t, ht, hcfg, hreg⟩ := execAll_step_sick (s := complete (writePrev (writeCrc s P.init) 0)) hP hk B
  refine ⟨_, execAll_streamCommands hinit ht (hcfg ▸ hP), ?_, rfl⟩
  have hstart : readCrc (complete (writePrev (writeCrc s P.init) 0)) 16 = toWidth 16 P.init :=
    readCrc_writeCrc (by decide) s P.init
  have hfold : readCrc t 16 = (B.foldl (sickFold Config.sickStep) (toWidth 16 P.init, 0)).1 := by
    rw [← hstart]
    exact congrArg Prod.fst hreg
  have hW : P.W ≤ 16 := (congrArg Width.bits (Config.sick_width hs.cfg hP hk)).le
  have hread : readCrc t P.W = toWidth P.W (readCrc t 16) := (BitVec.setWidth_setWidth_of_le _ hW).symm
  rw [complete_result, writeResult_result, hread, hfold]
  rfl

theorem execAll_streamCommands_wholeResult {s : State} {vid : BitVec 4} {P : ParamSet} (hs : s.Inv)
    (hP : s.cfg.variant? vid = some P) (B : List Byte) :
    ∃ t, execAll (streamCommands vid B) s = .next t ∧ t.result = wholeResult P B ∧ t.flt = false := by
  cases hk : P.kind with
  | table => simpa [wholeResult, hk] using execAll_streamCommands_compute hs hP hk B
  | sick => simpa [wholeResult, hk] using execAll_streamCommands_computeSick hs hP hk B

/-- Settles O44: the stream and COMPUTE both leave the whole-buffer result of the bytes. -/
theorem incrementalEquivalence : Obligations.IncrementalEquivalence := by
  intro s vid P B hs hP ha hB
  obtain ⟨t, ht, htresult, htflt⟩ := execAll_streamCommands_wholeResult hs hP B
  obtain ⟨u, hu, huresult, huflt⟩ := exec_compute_wholeResult hs.tables hP ha hB
  exact ⟨t, u, ht, hu, htresult.trans huresult.symm, htresult, htflt, huflt⟩

end Sys2Proof.Machine

namespace Sys2Proof

/-- The word of a command that uses no operand field (R93). -/
theorem wordsAre_plain {i : Instr} {op : BitVec 4} (h : encode i = encodeFields op 0 0) :
    Machine.WordsAre (· = i) 0xFFFFFFFF (encodeFields op 0 0) := by
  intro w
  calc (∃ j, decode w = .ok j ∧ j = i)
      ↔ w = encodeFields op 0 0 := by simp [decodeInvertsEncode w, h]
    _ ↔ w &&& 0xFFFFFFFF = encodeFields op 0 0 := eq_encodeFields_zero_iff

end Sys2Proof

namespace Sys2Proof.Machine

/-! ## `IllegalVariant`, the first check of a command (R204) -/

/-- A command that names a variant it may not name raises `IllegalVariant` and does nothing else. -/
theorem exec_of_not_wf {i : Instr} {s : State} (h : i.wf s.cfg = false) :
    exec i s = .next (raiseCmd s .illegalVariant i) := by
  cases i with
  | nop => cases h
  | sreset => cases h
  | tbuild vid => exact exec_tbuild_none (by simpa [Instr.wf] using h)
  | tread vid index => exact exec_tread_none (by simpa [Instr.wf] using h)
  | cinit vid => exact exec_cinit_none (by simpa [Instr.wf] using h)
  | step vid c => exact exec_step_none (by simpa [Instr.wf] using h)
  | cfinal vid => exact exec_cfinal_none (by simpa [Instr.wf] using h)
  | compute vid => exact exec_compute_none (by simpa [Instr.wf] using h)

/-- A command other than COMPUTE makes no further check. -/
theorem flt_of_exec_of_wf {i : Instr} {s t : State} (hwf : i.wf s.cfg = true) (hi : ∀ vid, i ≠ .compute vid)
    (h : exec i s = .next t) : t.flt = false := by
  cases i with
  | nop =>
    cases h
    rfl
  | sreset =>
    cases h
    rfl
  | tbuild vid =>
    obtain ⟨P, hP⟩ := Option.isSome_iff_exists.mp hwf
    cases (exec_tbuild_some hP).symm.trans h
    rfl
  | tread vid index =>
    obtain ⟨P, hP⟩ := Option.isSome_iff_exists.mp hwf
    cases (exec_tread_some hP).symm.trans h
    rfl
  | cinit vid =>
    obtain ⟨P, hP⟩ := Option.isSome_iff_exists.mp hwf
    cases hk : P.kind with
    | table =>
      cases (exec_cinit_table hP hk).symm.trans h
      rfl
    | sick =>
      cases (exec_cinit_sick hP hk).symm.trans h
      rfl
  | step vid c =>
    obtain ⟨P, hP⟩ := Option.isSome_iff_exists.mp hwf
    cases hk : P.kind with
    | table =>
      cases (exec_step_table hP hk).symm.trans h
      rfl
    | sick =>
      cases (exec_step_sick hP hk).symm.trans h
      rfl
  | cfinal vid =>
    obtain ⟨P, hP⟩ := Option.isSome_iff_exists.mp hwf
    cases (exec_cfinal_some hP).symm.trans h
    rfl
  | compute vid => exact absurd rfl (hi vid)

/-! ## The checks of COMPUTE after the variant (R75 to R77, R207) -/

/-- Some byte cannot be read exactly where the read of the buffer answers `error`. -/
theorem bufferUnreadable_iff (s : State) :
    bufferUnreadable s = true ↔ ∃ a, readBuffer s (bufAddr s) (bufLen s) = .error a := by
  simp only [bufferUnreadable, Bool.not_eq_true', List.all_eq_false, List.mem_range, Bool.not_eq_true,
    Option.isSome_eq_false_iff, Option.isNone_iff_eq_none]
  constructor
  · rintro ⟨j, hj, hnone⟩
    cases hr : readBuffer s (bufAddr s) (bufLen s) with
    | error a => exact ⟨a, rfl⟩
    | ok B =>
      obtain ⟨hlen, hB⟩ := readBuffer_ok_iff.mp hr
      cases hnone.symm.trans (hB j (hlen ▸ hj))
  · rintro ⟨a, ha⟩
    obtain ⟨j, hj, -, hnone, -⟩ := readBuffer_error_iff.mp ha
    exact ⟨j, hj, hnone⟩

@[simp] theorem bufferUnreadable_ensureTable (s : State) (n : Nat) :
    bufferUnreadable (ensureTable s n) = bufferUnreadable s := by
  simp [bufferUnreadable]

@[simp] theorem foldInto_flt (s : State) {w : Nat} (f : List Byte → BitVec w) : (foldInto s f).flt = bufferUnreadable s := by
  rw [Bool.eq_iff_iff, bufferUnreadable_iff]
  rcases foldInto_cases s f with ⟨B, hB, h⟩ | ⟨a, ha, h⟩
  · simp [h, hB]
  · simp [h, ha]

theorem flt_of_exec_compute {vid : BitVec 4} {s t : State} (hwf : (Instr.compute vid).wf s.cfg = true)
    (h : exec (.compute vid) s = .next t) : t.flt = (nullBuffer s || bufferPastTop s || bufferUnreadable s) := by
  obtain ⟨P, hP⟩ := Option.isSome_iff_exists.mp hwf
  cases hn : nullBuffer s with
  | true =>
    cases (exec_compute_null hP hn).symm.trans h
    rfl
  | false =>
    cases hr : bufferPastTop s with
    | true =>
      cases (exec_compute_range hP hn hr).symm.trans h
      rfl
    | false =>
      cases hk : P.kind with
      | table =>
        cases (exec_compute_table hP hn hr hk).symm.trans h
        simp
      | sick =>
        cases (exec_compute_sick hP hn hr hk).symm.trans h
        simp

/-! ## The code a command word records, one equation per case of R207 -/

theorem faultCode_illegal {w : CmdWord} {e : Illegal} (h : decode w = .error e) (s : State) : faultCode w s = 2 := by
  simp only [faultCode, h]

theorem faultCode_of_not_wf {w : CmdWord} {i : Instr} {s : State} (h : decode w = .ok i) (hwf : i.wf s.cfg = false) :
    faultCode w s = 3 := by
  simp only [faultCode, h, if_pos hwf]

theorem faultCode_of_wf {w : CmdWord} {i : Instr} {s : State} (h : decode w = .ok i) (hwf : i.wf s.cfg = true)
    (hi : ∀ vid, i ≠ .compute vid) : faultCode w s = 0 := by
  simp only [faultCode, h, hwf]
  cases i with
  | compute vid => exact absurd rfl (hi vid)
  | _ => rfl

theorem faultCode_compute {w : CmdWord} {vid : BitVec 4} {s : State} (h : decode w = .ok (.compute vid))
    (hwf : (Instr.compute vid).wf s.cfg = true) :
    faultCode w s =
      if nullBuffer s then 1 else if bufferPastTop s then 4 else if bufferUnreadable s then 5 else 0 := by
  simp only [faultCode, h, hwf, nullBuffer_iff, bufferPastTop_iff]
  rfl

/-- `FLT` after a command tells whether R207 has a code for it. -/
theorem flt_of_exec_iff {w : CmdWord} {i : Instr} {s t : State} (hw : decode w = .ok i) (h : exec i s = .next t) :
    t.flt = true ↔ faultCode w s ≠ 0 := by
  cases hwf : i.wf s.cfg with
  | false =>
    cases (exec_of_not_wf hwf).symm.trans h
    simp [faultCode_of_not_wf hw hwf]
  | true =>
    by_cases hi : ∃ vid, i = .compute vid
    · obtain ⟨vid, rfl⟩ := hi
      rw [flt_of_exec_compute hwf h, faultCode_compute hw hwf]
      grind
    · have hi' := not_exists.mp hi
      simp [flt_of_exec_of_wf hwf hi' h, faultCode_of_wf hw hwf hi']

/-- Settles O6: an illegal word always faults; a command's checks are those of R207, in its order. -/
theorem commandWordIsOneTransition : Obligations.CommandWordIsOneTransition := by
  intro w s
  refine ⟨fun e he => execWord_error he s, fun i hi => execWord_ok hi s, ?_⟩
  cases hw : decode w with
  | error e => exact ⟨_, execWord_error hw s, by simp [faultCode_illegal hw]⟩
  | ok i =>
    obtain ⟨t, ht⟩ := exec_next i s
    exact ⟨t, (execWord_ok hw s).trans ht, flt_of_exec_iff hw ht⟩

/-! ## NOP and SRESET (R170, R171) -/

/-- Settles O14: NOP is the completion alone. -/
theorem nopClearsFltOnly : Obligations.NopClearsFltOnly := by
  exact ⟨fun s => exec_nop s, wordsAre_plain (op := 0) rfl⟩

/-- A fault on record stays there, whatever command word but SRESET follows (R210). -/
theorem record_kept_of_execWord {w : CmdWord} {s t : State} (h : execWord w s = .next t) (hw : decode w ≠ .ok .sreset)
    (h0 : s.err ≠ 0) : t.err = s.err ∧ t.einfo = s.einfo := by
  cases hd : decode w with
  | ok i =>
    have hexec : exec i s = .next t := (execWord_ok hd s).symm.trans h
    have hi : i ≠ .sreset := fun hi => hw (hi ▸ hd)
    by_contra hne
    exact h0 (record_of_exec hexec hi (not_and_or.mp hne)).1
  | error e =>
    cases (execWord_error hd s).symm.trans h
    exact ⟨if_neg h0, if_neg h0⟩

/-- Settles O15: SRESET is the reset event; every other word keeps a recorded fault, and the slots that are valid. -/
theorem sresetClearsTheBlock : Obligations.SresetClearsTheBlock := by
  refine ⟨fun s => ⟨_, exec_sreset s, isResetState_resetBlock s, rfl⟩, fun w s t h hw => ?_, wordsAre_plain (op := 7) rfl⟩
  exact ⟨record_kept_of_execWord h hw, fun n hn => (validSlotIsNeverRebuilt w s t n h hw hn).1⟩

/-! ## Host reads and writes (R172, R173) -/

theorem toNat_append_eq_add {m n : Nat} (x : BitVec m) (y : BitVec n) : (x ++ y).toNat = 2 ^ n * x.toNat + y.toNat := by
  rw [BitVec.toNat_append, ← Nat.shiftLeft_add_eq_or_of_lt y.isLt, Nat.shiftLeft_eq, Nat.mul_comm]

/-- The low `n` bits of a bit vector, as the sum of the powers of 2 at its set bits. -/
theorem toNat_mod_eq_sum {w : Nat} (x : BitVec w) (n : Nat) :
    x.toNat % 2 ^ n = ((List.range n).map fun t => if x.getLsbD t then 2 ^ t else 0).sum := by
  induction n with
  | zero => simp [Nat.mod_one]
  | succ n ih =>
    have hbit : 2 ^ n * (x.toNat / 2 ^ n % 2) = if x.getLsbD n then 2 ^ n else 0 := by
      rw [BitVec.getLsbD, Nat.testBit_eq_decide_div_mod_eq]
      rcases Nat.mod_two_eq_zero_or_one (x.toNat / 2 ^ n) with h | h <;> simp [h]
    rw [Nat.mod_pow_succ, List.sum_range_succ, ih, hbit]

/-- `STATUS` as the sum of its parts (R28). -/
theorem toNat_statusWord (s : State) : (statusWord s).toNat = s.err.toNat + 16 * s.flt.toNat + 2 ^ 16 * s.tvalid.toNat := by
  simp only [statusWord, toNat_append_eq_add, BitVec.toNat_ofBool, BitVec.toNat_ofNat]
  omega

/-- `TVALID` as the sum over the `NTAB` slots: the bits from there on are 0 (R28). -/
theorem TablesRight.toNat_tvalid {s : State} (hs : TablesRight s) :
    s.tvalid.toNat = ((List.range s.cfg.ntab).map fun t => if slotValid s t then 2 ^ t else 0).sum := by
  have hlt : s.tvalid.toNat < 2 ^ s.cfg.ntab := by
    refine Nat.lt_pow_two_of_testBit _ fun t ht => ?_
    rw [← Bool.not_eq_true]
    exact fun hv => absurd (hs.unused t hv) (by omega)
  rw [← Nat.mod_eq_of_lt hlt]
  exact toNat_mod_eq_sum s.tvalid s.cfg.ntab

/-- Settles O47: the registers read as they stand; `STATUS` is the sum of its fields, and `TVALID` that of its valid bits. -/
theorem hostReadValues : Obligations.HostReadValues := by
  intro s hs
  refine ⟨rfl, rfl, rfl, rfl, rfl, rfl, rfl, ?_, fun r => rfl⟩
  have hread : hostRead s .status = statusWord s := rfl
  rw [hread, toNat_statusWord, hs.tables.toNat_tvalid, ← List.sum_map_mul_left]
  simp only [mul_ite, mul_zero, ← pow_add]

/-- Settles O49: each register's arm of the host write is the named update of that register. -/
theorem hostWriteEffects : Obligations.HostWriteEffects := by
  exact fun s v => ⟨rfl, rfl, rfl, rfl, rfl, rfl, rfl, rfl⟩

end Sys2Proof.Machine

namespace Sys2Proof.Machine

/-! ## The NMEA accumulator (R190, R192) -/

/-- Two bytes may enter the accumulator in either order (R192: XOR is commutative and associative). -/
theorem byte_xor_right_comm (acc x y : Byte) : acc ^^^ x ^^^ y = acc ^^^ y ^^^ x := by
  rw [BitVec.xor_assoc, BitVec.xor_comm x, ← BitVec.xor_assoc]

/-- The accumulator is the same for every order of the bytes. -/
theorem nmeaAcc_eq_of_perm {B B' : List Byte} (h : B.Perm B') : nmeaAcc B = nmeaAcc B' :=
  h.foldl_eq' (fun x _ y _ acc => byte_xor_right_comm acc x y) 0

/-- Settles O39: the two digits are read off the accumulator, which does not depend on the order. -/
theorem nmeaIsOrderIndependent : Obligations.NmeaIsOrderIndependent := by
  intro B B' h
  simp only [checksumNmea, nmeaAcc_eq_of_perm h]

end Sys2Proof.Machine

namespace Sys2Proof.Machine

/-! ## Fault entry (R203, R204, R208) -/

/-- Settles O4: `raise` tests the record once, for the code and for the information. -/
theorem faultEntryRecordsTheFirstFault : Obligations.FaultEntryRecordsTheFirstFault := by
  intro s f info
  constructor
  · intro h
    rw [raise, if_pos h, if_pos h]
  · intro h
    rw [raise, if_neg h, if_neg h]

/-- Settles O5: executing an illegal word is raising `IllegalCommand`, whose code is 2. -/
theorem illegalCommandExecutesNothing : Obligations.IllegalCommandExecutesNothing := by
  exact fun w s e h => execWord_error h s

/-- A command that raises a fault on the state as it was faults with the fault's code and the command's word. -/
theorem faultsWith_of_raiseCmd {i : Instr} {s : State} (f : BlockFault) (h : exec i s = .next (raiseCmd s f i)) :
    FaultsWith i s f.code ((encode i).setWidth 64) := h

theorem tableVariant?_eq_none_of_sick {c : Config} {vid : BitVec 4} (h : ∀ P, c.variant? vid = some P → P.kind = .sick) :
    c.tableVariant? vid = none := by
  refine Option.eq_none_iff_forall_ne_some.mpr fun P hP => ?_
  obtain ⟨hv, hk⟩ := Config.tableVariant?_eq_some.mp hP
  cases hk.symm.trans (h P hv)

/-- R204 (a): no command that names a variant that is not valid is well-formed. -/
theorem not_wf_of_variant?_eq_none {i : Instr} {c : Config} {vid : BitVec 4} (hi : i.vid? = some vid)
    (h : c.variant? vid = none) : i.wf c = false := by
  have ht : c.tableVariant? vid = none := tableVariant?_eq_none_of_sick (by simp [h])
  cases i with
  | nop => cases hi
  | sreset => cases hi
  | tbuild v | tread v _ =>
    cases hi
    exact Option.isSome_eq_false_iff.mpr (Option.isNone_iff_eq_none.mpr ht)
  | cinit v | step v _ | cfinal v | compute v =>
    cases hi
    exact Option.isSome_eq_false_iff.mpr (Option.isNone_iff_eq_none.mpr h)

/-- Settles O8: in both cases of R204 the command is not well-formed, and such a command raises `IllegalVariant`. -/
theorem illegalVariantFaults : Obligations.IllegalVariantFaults := by
  refine fun i s vid hvid => ⟨fun hnone => ?_, fun P hP hk hi => ?_⟩
  · exact faultsWith_of_raiseCmd .illegalVariant (exec_of_not_wf (not_wf_of_variant?_eq_none hvid hnone))
  · have ht : s.cfg.tableVariant? vid = none :=
      tableVariant?_eq_none_of_sick fun Q hQ => Option.some.inj (hP.symm.trans hQ) ▸ hk
    rcases hi with rfl | ⟨index, rfl⟩
    · exact faultsWith_of_raiseCmd .illegalVariant (exec_tbuild_none ht)
    · exact faultsWith_of_raiseCmd .illegalVariant (exec_tread_none ht)

/-! ## The order of conditions (R207) -/

/-- Which condition of R207 gives a word its code; COMPUTE alone checks more than the word and its variant. -/
theorem faultCode_cases (w : CmdWord) (s : State) :
    (∃ e, decode w = .error e ∧ faultCode w s = 2) ∨
      (∃ i, decode w = .ok i ∧ i.wf s.cfg = false ∧ faultCode w s = 3) ∨
      (∃ i, decode w = .ok i ∧ i.wf s.cfg = true ∧ (∀ vid, i ≠ .compute vid) ∧ faultCode w s = 0) ∨
      ∃ vid, decode w = .ok (.compute vid) ∧ (Instr.compute vid).wf s.cfg = true ∧
        faultCode w s = if nullBuffer s then 1 else if bufferPastTop s then 4 else if bufferUnreadable s then 5 else 0 := by
  cases hw : decode w with
  | error e => exact .inl ⟨e, rfl, faultCode_illegal hw s⟩
  | ok i =>
    cases hwf : i.wf s.cfg with
    | false => exact .inr (.inl ⟨i, rfl, hwf, faultCode_of_not_wf hw hwf⟩)
    | true =>
      by_cases hi : ∃ vid, i = .compute vid
      · obtain ⟨vid, rfl⟩ := hi
        exact .inr (.inr (.inr ⟨vid, rfl, hwf, faultCode_compute hw hwf⟩))
      · exact .inr (.inr (.inl ⟨i, rfl, hwf, not_exists.mp hi, faultCode_of_wf hw hwf (not_exists.mp hi)⟩))

/-- A command that completes leaves the fault record as it was (R210). -/
theorem record_kept_of_completes {i : Instr} {s t : State} (h : exec i s = .next t) (hi : i ≠ .sreset) (hf : t.flt = false) :
    t.err = s.err ∧ t.einfo = s.einfo := by
  by_contra hne
  have hflt := (record_of_exec h hi (not_and_or.mp hne)).2
  cases hf.symm.trans hflt

theorem err_eq_zero_of_completes {i : Instr} {s t : State} (h : exec i s = .next t) (h0 : s.err = 0) (hf : t.flt = false) :
    t.err = 0 := by
  by_cases hi : i = .sreset
  · subst hi
    cases h
    rfl
  · exact (record_kept_of_completes h hi hf).1.trans h0

@[simp] theorem foldInto_err (s : State) {w : Nat} (f : List Byte → BitVec w) :
    (foldInto s f).err = if s.err = 0 ∧ bufferUnreadable s = true then 5 else s.err := by
  rcases foldInto_cases s f with ⟨B, hB, h⟩ | ⟨a, ha, h⟩
  · have hread : ¬ bufferUnreadable s = true := by simp [bufferUnreadable_iff, hB]
    rw [h, if_neg fun hc => hread hc.2]
    rfl
  · have hread : bufferUnreadable s = true := (bufferUnreadable_iff s).mpr ⟨a, ha⟩
    simp only [h, raise_err, hread, and_true]
    rfl

/-- The checks of COMPUTE after the variant, in the order of R207. -/
theorem err_of_exec_compute {vid : BitVec 4} {s t : State} (hwf : (Instr.compute vid).wf s.cfg = true)
    (h : exec (.compute vid) s = .next t) (h0 : s.err = 0) :
    t.err = if nullBuffer s then 1 else if bufferPastTop s then 4 else if bufferUnreadable s then 5 else 0 := by
  obtain ⟨P, hP⟩ := Option.isSome_iff_exists.mp hwf
  cases hn : nullBuffer s with
  | true =>
    cases (exec_compute_null hP hn).symm.trans h
    exact if_pos h0
  | false =>
    cases hr : bufferPastTop s with
    | true =>
      cases (exec_compute_range hP hn hr).symm.trans h
      exact if_pos h0
    | false =>
      cases hk : P.kind with
      | table =>
        cases (exec_compute_table hP hn hr hk).symm.trans h
        simp [h0]
      | sick =>
        cases (exec_compute_sick hP hn hr hk).symm.trans h
        simp [h0]

/-- From a clear record a command word leaves the code of R207's first condition. -/
theorem err_of_execWord {w : CmdWord} {s t : State} (h : execWord w s = .next t) (h0 : s.err = 0) :
    t.err = faultCode w s := by
  rcases faultCode_cases w s with ⟨e, hw, hc⟩ | ⟨i, hw, hwf, hc⟩ | ⟨i, hw, hwf, hi, hc⟩ | ⟨vid, hw, hwf, hc⟩
  · cases (execWord_error hw s).symm.trans h
    exact (if_pos h0).trans hc.symm
  all_goals
    rw [execWord_ok hw] at h
    rw [hc]
  · cases (exec_of_not_wf hwf).symm.trans h
    exact if_pos h0
  · exact err_eq_zero_of_completes h h0 (flt_of_exec_of_wf hwf hi h)
  · exact err_of_exec_compute hwf h h0

/-- Settles O11: every word answers a next state, whose code is that of the first condition. -/
theorem faultPriority : Obligations.FaultPriority := by
  intro w s h0
  obtain ⟨t, ht⟩ := execWord_next w s
  exact ⟨t, ht, err_of_execWord ht h0⟩

/-! ## The faults of COMPUTE (R202, R205, R206) -/

theorem nullBuffer_of_faultCode_eq_one {w : CmdWord} {s : State} (h : faultCode w s = 1) :
    ∃ vid, decode w = .ok (.compute vid) ∧ nullBuffer s = true := by
  rcases faultCode_cases w s with ⟨e, -, hc⟩ | ⟨i, -, -, hc⟩ | ⟨i, -, -, -, hc⟩ | ⟨vid, hw, -, hc⟩
  all_goals rw [hc] at h
  · cases h
  · cases h
  · cases h
  · refine ⟨vid, hw, ?_⟩
    by_contra hn
    rw [if_neg hn] at h
    split_ifs at h <;> cases h

theorem bufferPastTop_of_faultCode_eq_four {w : CmdWord} {s : State} (h : faultCode w s = 4) : bufferPastTop s = true := by
  rcases faultCode_cases w s with ⟨e, -, hc⟩ | ⟨i, -, -, hc⟩ | ⟨i, -, -, -, hc⟩ | ⟨vid, -, -, hc⟩
  all_goals rw [hc] at h
  · cases h
  · cases h
  · cases h
  · by_contra hr
    rw [if_neg hr] at h
    split_ifs at h <;> cases h

/-- An empty buffer at address 0 passes every check of COMPUTE (R75, R76), so the command completes. -/
theorem flt_of_exec_compute_absent {vid : BitVec 4} {s t : State} (hwf : (Instr.compute vid).wf s.cfg = true)
    (ha : s.baddr = 0) (hl : s.blen = 0) (h : exec (.compute vid) s = .next t) : t.flt = false := by
  have hacc : BufferAccepted s := ⟨fun _ => hl, by simp [ha, hl]⟩
  obtain ⟨hn, hr⟩ := (bufferAccepted_iff s).mp hacc
  rw [flt_of_exec_compute hwf h, hn, hr]
  simp [bufferUnreadable, hl]

/-- Settles O7: the null buffer is COMPUTE's first check after the variant, and no other condition of R207 has code 1. -/
theorem invalidArgumentIsTheNullBuffer : Obligations.InvalidArgumentIsTheNullBuffer := by
  refine ⟨fun s vid P hP ha hl => ?_, fun s vid P hP ha hl => ?_, fun w s t h h0 h1 => ?_⟩
  · exact faultsWith_of_raiseCmd .invalidArgument (exec_compute_null hP ((nullBuffer_iff s).mpr ⟨ha, hl⟩))
  · obtain ⟨t, ht⟩ := exec_next (.compute vid) s
    have hflt := flt_of_exec_compute_absent (Option.isSome_iff_exists.mpr ⟨P, hP⟩) ha hl ht
    exact ⟨t, ht, hflt, record_kept_of_completes ht (by simp) hflt⟩
  · obtain ⟨vid, hw, hn⟩ := nullBuffer_of_faultCode_eq_one ((err_of_execWord h h0).symm.trans h1)
    exact ⟨vid, hw, (nullBuffer_iff s).mp hn⟩

/-- Settles O9: the bound is COMPUTE's check after the null buffer, and no other condition of R207 has code 4. -/
theorem bufferRangeFaults : Obligations.BufferRangeFaults := by
  constructor
  · intro s vid P hP hnull htop
    have hn : nullBuffer s = false := Bool.eq_false_iff.mpr fun hn =>
      have ⟨ha, hl⟩ := (nullBuffer_iff s).mp hn
      hl (hnull ha)
    exact faultsWith_of_raiseCmd .bufferRange (exec_compute_range hP hn ((bufferPastTop_iff s).mpr htop))
  · intro s vid t h h0 hle h4
    have hcode := err_of_execWord ((execWord_ok (decode_encode (.compute vid)) s).trans h) h0
    have htop := (bufferPastTop_iff s).mp (bufferPastTop_of_faultCode_eq_four (hcode.symm.trans h4))
    exact absurd hle (Nat.not_le.mpr htop)

/-- Settles O10: the read of the buffer answers `error` at the smallest unreadable address, after `ensure_table` for a
`table`-kind variant. -/
theorem busErrorAtTheLowestAddress : Obligations.BusErrorAtTheLowestAddress := by
  intro s vid P j hP ha hj hnone hfirst
  obtain ⟨hn, hr⟩ := (bufferAccepted_iff s).mp ha
  have hread : readBuffer s (bufAddr s) (bufLen s) = .error (s.baddr.toNat + j) :=
    readBuffer_error_iff.mpr ⟨j, hj, rfl, hnone, hfirst⟩
  cases hk : P.kind with
  | table =>
    have hbuilt : readBuffer (ensureTable s (s.cfg.tid P)) (bufAddr (ensureTable s (s.cfg.tid P)))
        (bufLen (ensureTable s (s.cfg.tid P))) = .error (s.baddr.toNat + j) := by
      rw [← hread, bufAddr, bufLen, ensureTable_baddr, ensureTable_blen]
      exact readBuffer_congr (memRead_ensureTable s _) _ _
    refine ⟨_, (exec_compute_table hP hn hr hk).trans (congrArg _ (foldInto_error hbuilt)), ?_, fun _ => ?_, nofun⟩
    · exact congrArg (fun t => raise t .busError _) (ensureTable_frame s (s.cfg.tid P))
    · exact (slotEnsured_tid hP hk).congr rfl rfl
  | sick =>
    exact ⟨_, (exec_compute_sick hP hn hr hk).trans (congrArg _ (foldInto_error hread)), rfl, nofun, fun _ => ⟨rfl, rfl⟩⟩

/-! ## What a faulting command leaves (R209) -/

theorem BlockFault.code_ne_zero (f : BlockFault) : f.code ≠ 0 := by
  cases f <;> decide

/-- The loop of COMPUTE, where it faults, raises `BusError` and does nothing else. -/
theorem foldInto_of_bufferUnreadable {s : State} (h : bufferUnreadable s = true) {w : Nat} (f : List Byte → BitVec w) :
    ∃ a, foldInto s f = raise s .busError (BitVec.ofNat 64 a) := by
  obtain ⟨a, ha⟩ := (bufferUnreadable_iff s).mp h
  exact ⟨a, foldInto_error ha⟩

/-- A command word that faults has raised one fault, on the state as it was or, where it is a COMPUTE over a buffer that
cannot be read and the fault `BusError`, on a state that differs from it in the table store. -/
theorem raise_of_execWord_flt {w : CmdWord} {s t : State} (h : execWord w s = .next t) (hf : t.flt = true) :
    (∃ f info, t = raise s f info) ∨
      ∃ vid v e info, decode w = .ok (.compute vid) ∧ bufferUnreadable s = true ∧
        t = raise { s with tvalid := v, tent := e } .busError info := by
  rcases faultCode_cases w s with ⟨e, hw, -⟩ | ⟨i, hw, hwf, -⟩ | ⟨i, hw, hwf, hi, -⟩ | ⟨vid, hw, -, -⟩
  · exact .inl ⟨_, _, Host.Outcome.next.inj (h.symm.trans (execWord_error hw s))⟩
  all_goals rw [execWord_ok hw] at h
  · exact .inl ⟨_, _, Host.Outcome.next.inj (h.symm.trans (exec_of_not_wf hwf))⟩
  · cases hf.symm.trans (flt_of_exec_of_wf hwf hi h)
  · rcases exec_compute_cases h with ⟨f, rfl⟩ | ⟨n, f, rfl | ⟨n, rfl⟩⟩
    · exact .inl ⟨f, _, rfl⟩
    · obtain ⟨a, ha⟩ := foldInto_of_bufferUnreadable ((foldInto_flt s f).symm.trans hf) f
      exact .inl ⟨_, _, ha⟩
    · have hread : bufferUnreadable (ensureTable s n) = true := (foldInto_flt _ f).symm.trans hf
      obtain ⟨a, ha⟩ := foldInto_of_bufferUnreadable hread f
      refine .inr ⟨vid, (ensureTable s n).tvalid, (ensureTable s n).tent, BitVec.ofNat 64 a, hw, ?_, ha.trans ?_⟩
      · exact (bufferUnreadable_ensureTable s n).symm.trans hread
      · exact congrArg (fun u => raise u .busError _) (ensureTable_frame s n)

/-- Settles O12: raising a fault writes the record alone, and only the unreadable buffer of a COMPUTE is met after
`ensure_table`. -/
theorem faultingCommandHasNoPartialResult : Obligations.FaultingCommandHasNoPartialResult := by
  intro w s t h hf
  rcases raise_of_execWord_flt h hf with ⟨f, info, rfl⟩ | ⟨vid, v, e, info, hw, hread, rfl⟩
  · refine ⟨rfl, rfl, rfl, rfl, rfl, fun h0 => ?_, fun h0 => ⟨if_neg h0, if_neg h0⟩, fun hstore => by simp at hstore⟩
    rw [raise_err, if_pos h0]
    exact f.code_ne_zero
  · have h5 : s.err = 0 → (raise { s with tvalid := v, tent := e } .busError info).err = 5 := fun h0 => if_pos h0
    refine ⟨rfl, rfl, rfl, rfl, rfl, fun h0 => ?_, fun h0 => ⟨if_neg h0, if_neg h0⟩, fun _ => ⟨⟨vid, hw⟩, hread, h5⟩⟩
    rw [h5 h0]
    decide

/-! ## A command acts as it would without the recorded fault (R210) -/

/-- Raising a fault where the fault `e` with information `x` is on record keeps that one and sets `FLT` (R208). -/
theorem raise_withRecord {e : BitVec 4} (he : e ≠ 0) (s : State) (x : Word) (b : Bool) (f : BlockFault) (info : Word) :
    raise { s with err := e, einfo := x, flt := b } f info = { raise s f info with err := e, einfo := x } := by
  simp only [raise, if_neg he]

/-- A command that raises its fault whatever the record holds keeps the one on record. -/
theorem exec_withRecord_of_raiseCmd {e : BitVec 4} (he : e ≠ 0) {i : Instr} {s : State} {x : Word} {b : Bool}
    {f : BlockFault} (h : exec i { s with err := e, einfo := x, flt := b } =
      .next (raiseCmd { s with err := e, einfo := x, flt := b } f i)) :
    exec i { s with err := e, einfo := x, flt := b } = .next { raiseCmd s f i with err := e, einfo := x } :=
  h.trans (congrArg _ (raise_withRecord he s x b f _))

theorem ensureTable_withRecord (s : State) (e : BitVec 4) (x : Word) (b : Bool) (n : Nat) :
    ensureTable { s with err := e, einfo := x, flt := b } n = { ensureTable s n with err := e, einfo := x, flt := b } := by
  cases hv : s.tvalid.getLsbD n <;> cases hk : s.cfg.keys[n]? <;> simp only [ensureTable, slotValid, hv, hk] <;> rfl

theorem foldInto_withRecord {e : BitVec 4} (he : e ≠ 0) (s : State) (x : Word) (b : Bool) {w : Nat}
    (f : List Byte → BitVec w) :
    foldInto { s with err := e, einfo := x, flt := b } f = { foldInto s f with err := e, einfo := x } := by
  have hread : readBuffer { s with err := e, einfo := x, flt := b } (bufAddr s) (bufLen s) =
      readBuffer s (bufAddr s) (bufLen s) :=
    readBuffer_congr (s := { s with err := e, einfo := x, flt := b }) (t := s) (fun _ => rfl) _ _
  rcases foldInto_cases s f with ⟨B, hB, h⟩ | ⟨a, ha, h⟩
  · rw [h, foldInto_ok (hread.trans hB)]
    rfl
  · rw [h, foldInto_error (hread.trans ha), raise_withRecord he]

/-- COMPUTE of a valid variant reads no part of the fault record but to keep a fault that is there. -/
theorem exec_compute_withRecord {e : BitVec 4} (he : e ≠ 0) {vid : BitVec 4} {s u : State}
    (hwf : (Instr.compute vid).wf s.cfg = true) (x : Word) (b : Bool) (h : exec (.compute vid) s = .next u) :
    exec (.compute vid) { s with err := e, einfo := x, flt := b } = .next { u with err := e, einfo := x } := by
  obtain ⟨P, hP⟩ := Option.isSome_iff_exists.mp hwf
  cases hn : nullBuffer s with
  | true =>
    cases (exec_compute_null hP hn).symm.trans h
    exact exec_withRecord_of_raiseCmd he (exec_compute_null hP hn)
  | false =>
    cases hr : bufferPastTop s with
    | true =>
      cases (exec_compute_range hP hn hr).symm.trans h
      exact exec_withRecord_of_raiseCmd he (exec_compute_range hP hn hr)
    | false =>
      cases hk : P.kind with
      | table =>
        cases (exec_compute_table hP hn hr hk).symm.trans h
        rw [exec_compute_table (s := { s with err := e, einfo := x, flt := b }) hP hn hr hk, ensureTable_withRecord,
          foldInto_withRecord he]
        rfl
      | sick =>
        cases (exec_compute_sick hP hn hr hk).symm.trans h
        rw [exec_compute_sick (s := { s with err := e, einfo := x, flt := b }) hP hn hr hk, foldInto_withRecord he]

/-- A command other than SRESET keeps a recorded fault and does the rest as it does from any other record. -/
theorem exec_withRecord {e : BitVec 4} (he : e ≠ 0) {i : Instr} {s u : State} (hi : i ≠ .sreset) (x : Word) (b : Bool)
    (h : exec i s = .next u) :
    exec i { s with err := e, einfo := x, flt := b } = .next { u with err := e, einfo := x } := by
  cases hwf : i.wf s.cfg with
  | false =>
    cases (exec_of_not_wf hwf).symm.trans h
    exact exec_withRecord_of_raiseCmd he (exec_of_not_wf hwf)
  | true =>
    cases i with
    | sreset => exact absurd rfl hi
    | nop =>
      cases h
      rfl
    | tbuild vid =>
      obtain ⟨P, hP⟩ := Option.isSome_iff_exists.mp hwf
      cases (exec_tbuild_some hP).symm.trans h
      rw [exec_tbuild_some (s := { s with err := e, einfo := x, flt := b }) hP, ensureTable_withRecord]
      rfl
    | tread vid index =>
      obtain ⟨P, hP⟩ := Option.isSome_iff_exists.mp hwf
      cases (exec_tread_some hP).symm.trans h
      rw [exec_tread_some (s := { s with err := e, einfo := x, flt := b }) hP, ensureTable_withRecord]
      rfl
    | cinit vid =>
      obtain ⟨P, hP⟩ := Option.isSome_iff_exists.mp hwf
      cases hk : P.kind with
      | table =>
        cases (exec_cinit_table hP hk).symm.trans h
        exact exec_cinit_table hP hk
      | sick =>
        cases (exec_cinit_sick hP hk).symm.trans h
        exact exec_cinit_sick hP hk
    | step vid c =>
      obtain ⟨P, hP⟩ := Option.isSome_iff_exists.mp hwf
      cases hk : P.kind with
      | table =>
        cases (exec_step_table hP hk).symm.trans h
        rw [exec_step_table (s := { s with err := e, einfo := x, flt := b }) hP hk, ensureTable_withRecord]
        rfl
      | sick =>
        cases (exec_step_sick hP hk).symm.trans h
        exact exec_step_sick hP hk
    | cfinal vid =>
      obtain ⟨P, hP⟩ := Option.isSome_iff_exists.mp hwf
      cases (exec_cfinal_some hP).symm.trans h
      exact exec_cfinal_some hP
    | compute vid => exact exec_compute_withRecord he hwf x b h

theorem execWord_withRecord {e : BitVec 4} (he : e ≠ 0) {w : CmdWord} {s u : State} (hw : decode w ≠ .ok .sreset) (x : Word)
    (b : Bool) (h : execWord w s = .next u) :
    execWord w { s with err := e, einfo := x, flt := b } = .next { u with err := e, einfo := x } := by
  cases hd : decode w with
  | error r =>
    cases (execWord_error hd s).symm.trans h
    exact (execWord_error hd _).trans (congrArg _ (raise_withRecord he s x b _ _))
  | ok i =>
    have hi : i ≠ .sreset := fun hi => hw (hi ▸ hd)
    exact (execWord_ok hd _).trans (exec_withRecord he hi x b ((execWord_ok hd s).symm.trans h))

/-- Settles O13: the run from the clear record, given the recorded fault again, is the run from the state itself. -/
theorem firstFaultIsSticky : Obligations.FirstFaultIsSticky := by
  intro w s t h h0 hw
  obtain ⟨herr, heinfo⟩ := record_kept_of_execWord h hw h0
  obtain ⟨u, hu⟩ := execWord_next w { s with err := 0, einfo := 0, flt := false }
  have hs : execWord w s = .next { u with err := s.err, einfo := s.einfo } :=
    execWord_withRecord (s := { s with err := 0, einfo := 0, flt := false }) h0 hw s.einfo s.flt hu
  exact ⟨herr, heinfo, u, hu, Host.Outcome.next.inj (h.symm.trans hs)⟩

end Sys2Proof.Machine

namespace Sys2Proof.Machine

/-! ## The reset event (R230) -/

/-- Settles O16: the reset event writes the block's own state alone. -/
theorem sresetFrame : Obligations.SresetFrame := by
  intro s t h
  cases h
  exact ⟨rfl, rfl, memRead_congr rfl rfl, rfl, rfl⟩

theorem statusWord_resetBlock (s : State) : statusWord (resetBlock s) = 0 := by
  apply BitVec.eq_of_toNat_eq
  simp [toNat_statusWord]

/-- Settles O57: both are the reset event. -/
theorem resetInputIsSreset : Obligations.ResetInputIsSreset :=
  fun s => ⟨resetBlock s, rfl, exec_sreset s, isResetState_resetBlock s, statusWord_resetBlock s⟩

/-! ## What a host action can do to the fault record (R208, R210) -/

theorem raise_err_ne_zero (s : State) (f : BlockFault) (info : Word) : (raise s f info).err ≠ 0 := by
  rw [raise_err]
  split
  · exact f.code_ne_zero
  · assumption

theorem err_ne_zero_of_execWord_flt {w : CmdWord} {s t : State} (h : execWord w s = .next t) (hf : t.flt = true) : t.err ≠ 0 := by
  rcases raise_of_execWord_flt h hf with ⟨f, info, rfl⟩ | ⟨-, -, -, info, -, -, rfl⟩ <;> exact raise_err_ne_zero _ _ _

theorem flt_of_execWord_err_ne_zero {w : CmdWord} {s t : State} (h : execWord w s = .next t) (h0 : s.err = 0) (ht : t.err ≠ 0) :
    t.flt = true := by
  obtain ⟨-, -, u, hu, hflt⟩ := commandWordIsOneTransition w s
  cases hu.symm.trans h
  exact hflt.mpr (err_of_execWord h h0 ▸ ht)

theorem actionFaults_cmd {v : Word} {s t : State} (h : execWord (toWidth 32 v) s = .next t) :
    actionFaults s (.write .cmd v) = t.flt := by
  simp only [actionFaults, h]

/-- Only a command or the reset input can fault, erase the record or write `ERR`. -/
theorem hostAct_cases {act : HostAction} {s t : State} (h : hostAct act s = .next t) :
    (∃ v, act = .write .cmd v ∧ execWord (toWidth 32 v) s = .next t) ∨
      (act = .reset ∧ t = resetBlock s) ∨
      (actionFaults s act = false ∧ erasesRecord act = false ∧ t.err = s.err) := by
  cases act with
  | reset => exact .inr (.inl ⟨rfl, (Host.Outcome.next.inj h).symm⟩)
  | read r =>
    cases h
    exact .inr (.inr ⟨rfl, rfl, rfl⟩)
  | memWrite a b =>
    obtain ⟨-, rfl⟩ := platformWrite_cases h
    exact .inr (.inr ⟨rfl, rfl, rfl⟩)
  | write r v =>
    cases r with
    | cmd => exact .inl ⟨v, rfl, h⟩
    | _ =>
      cases h
      exact .inr (.inr ⟨rfl, rfl, rfl⟩)

theorem err_ne_zero_of_actionFaults {act : HostAction} {s t : State} (h : hostAct act s = .next t)
    (hf : actionFaults s act = true) : t.err ≠ 0 := by
  rcases hostAct_cases h with ⟨v, rfl, hw⟩ | ⟨rfl, -⟩ | ⟨hno, -, -⟩
  · exact err_ne_zero_of_execWord_flt hw ((actionFaults_cmd hw).symm.trans hf)
  · cases hf
  · cases hno.symm.trans hf

theorem actionFaults_of_err_ne_zero {act : HostAction} {s t : State} (h : hostAct act s = .next t) (h0 : s.err = 0)
    (ht : t.err ≠ 0) : actionFaults s act = true := by
  rcases hostAct_cases h with ⟨v, rfl, hw⟩ | ⟨-, rfl⟩ | ⟨-, -, herr⟩
  · exact (actionFaults_cmd hw).trans (flt_of_execWord_err_ne_zero hw h0 ht)
  · exact absurd (resetBlock_err s) ht
  · exact absurd (herr.trans h0) ht

theorem err_kept_of_hostAct {act : HostAction} {s t : State} (h : hostAct act s = .next t) (he : erasesRecord act = false)
    (h0 : s.err ≠ 0) : t.err = s.err := by
  rcases hostAct_cases h with ⟨v, rfl, hw⟩ | ⟨rfl, -⟩ | ⟨-, -, herr⟩
  · exact (record_kept_of_execWord hw (of_decide_eq_false he) h0).1
  · cases he
  · exact herr

/-! ## Runs that went wrong (R239) -/

/-- Some command of the run of `acts` from `s` faults. -/
def SomeActionFaults (s : State) (acts : List HostAction) : Prop :=
  ∃ before act after u, acts = before ++ act :: after ∧ runActions before s = .next u ∧ actionFaults u act = true

theorem not_someActionFaults_nil (s : State) : ¬ SomeActionFaults s [] := by
  rintro ⟨before, act, after, -, hsplit, -⟩
  simp at hsplit

theorem someActionFaults_cons {act : HostAction} {s u : State} (h : hostAct act s = .next u) (rest : List HostAction) :
    SomeActionFaults s (act :: rest) ↔ actionFaults s act = true ∨ SomeActionFaults u rest := by
  constructor
  · rintro ⟨before, act', after, v, hsplit, hrun, hf⟩
    cases before with
    | nil =>
      cases hsplit
      cases hrun
      exact .inl hf
    | cons b bs =>
      cases hsplit
      obtain ⟨u', hu', hrun'⟩ := runActions_cons_eq_next.mp hrun
      cases hu'.symm.trans h
      exact .inr ⟨bs, act', after, v, rfl, hrun', hf⟩
  · rintro (hf | ⟨before, act', after, v, rfl, hrun, hf⟩)
    · exact ⟨[], act, rest, s, rfl, rfl, hf⟩
    · exact ⟨act :: before, act', after, v, rfl, runActions_cons_eq_next.mpr ⟨u, h, hrun⟩, hf⟩

theorem faultErased_cons {act : HostAction} {s u : State} (h : hostAct act s = .next u) (rest : List HostAction) :
    faultErased s (act :: rest) = true ↔
      (actionFaults s act = true ∧ rest.any erasesRecord = true) ∨ faultErased u rest = true := by
  simp only [faultErased, h, Bool.or_eq_true, Bool.and_eq_true]

/-- A fault on record stays there through a run that erases no record. -/
theorem err_ne_zero_of_runActions {acts : List HostAction} {s t : State} (h : runActions acts s = .next t)
    (he : acts.any erasesRecord = false) (h0 : s.err ≠ 0) : t.err ≠ 0 := by
  induction acts generalizing s with
  | nil =>
    cases h
    exact h0
  | cons act rest ih =>
    obtain ⟨u, hu, hrun⟩ := runActions_cons_eq_next.mp h
    obtain ⟨hact, hrest⟩ := Bool.or_eq_false_iff.mp (List.any_cons.symm.trans he)
    refine ih hrun hrest ?_
    rw [err_kept_of_hostAct hu hact h0]
    exact h0

/-- A fault in a run is on record at its end or has been erased. -/
theorem err_ne_zero_or_faultErased {acts : List HostAction} {s t : State} (h : runActions acts s = .next t)
    (hf : SomeActionFaults s acts) : t.err ≠ 0 ∨ faultErased s acts = true := by
  induction acts generalizing s with
  | nil => exact absurd hf (not_someActionFaults_nil s)
  | cons act rest ih =>
    obtain ⟨u, hu, hrun⟩ := runActions_cons_eq_next.mp h
    rw [faultErased_cons hu]
    rcases (someActionFaults_cons hu rest).mp hf with hact | hlater
    · cases he : rest.any erasesRecord with
      | true => exact .inr (.inl ⟨hact, rfl⟩)
      | false => exact .inl (err_ne_zero_of_runActions hrun he (err_ne_zero_of_actionFaults hu hact))
    · exact (ih hrun hlater).imp_right .inr

/-- From a clear record only a fault in the run leaves one on record. -/
theorem someActionFaults_of_err_ne_zero {acts : List HostAction} {s t : State} (h : runActions acts s = .next t) (h0 : s.err = 0)
    (ht : t.err ≠ 0) : SomeActionFaults s acts := by
  induction acts generalizing s with
  | nil =>
    cases h
    exact absurd h0 ht
  | cons act rest ih =>
    obtain ⟨u, hu, hrun⟩ := runActions_cons_eq_next.mp h
    rw [someActionFaults_cons hu]
    by_cases hu0 : u.err = 0
    · exact .inr (ih hrun hu0)
    · exact .inl (actionFaults_of_err_ne_zero hu h0 hu0)

theorem someActionFaults_of_faultErased {acts : List HostAction} {s t : State} (h : runActions acts s = .next t)
    (he : faultErased s acts = true) : SomeActionFaults s acts := by
  induction acts generalizing s with
  | nil => cases he
  | cons act rest ih =>
    obtain ⟨u, hu, hrun⟩ := runActions_cons_eq_next.mp h
    rw [someActionFaults_cons hu]
    exact ((faultErased_cons hu rest).mp he).imp And.left (ih hrun)

theorem wentWrong_iff {acts : List HostAction} {s t : State} (h : runActions acts s = .next t) :
    WentWrong s acts ↔ t.err ≠ 0 ∨ faultErased s acts = true := by
  simp only [WentWrong, h, Host.Outcome.next.injEq, exists_eq_left']

theorem wentWrong_iff_someActionFaults {acts : List HostAction} {s t : State} (h : runActions acts s = .next t)
    (h0 : s.err = 0) : WentWrong s acts ↔ SomeActionFaults s acts := by
  rw [wentWrong_iff h]
  exact ⟨fun hw => hw.elim (someActionFaults_of_err_ne_zero h h0) (someActionFaults_of_faultErased h),
    err_ne_zero_or_faultErased h⟩

/-- Settles O60: a fault stays on record until an action erases it, and from a clear record nothing but a fault sets `ERR`. -/
theorem runsThatWentWrong : Obligations.RunsThatWentWrong := by
  intro s t acts h
  refine ⟨fun he => ?_, wentWrong_iff_someActionFaults h, core_run_of_runActions rfl h⟩
  rw [wentWrong_iff h, he]
  simp

end Sys2Proof.Machine
